-- ==== Sys2Proof/Word.lean ====
section
/-! DEFINITION. The word types of the machine (spec/10_state.md R21, R24, R25; spec/00_scope.md R9, R13): every
register and every memory byte is an unsigned value of its width. -/

namespace Sys2Proof

/-- An 8-bit unsigned value: a general register, a timer, a memory byte (R21, R26, R52). -/
abbrev Byte := BitVec 8

/-- A 16-bit unsigned value: I, PC, a stack entry, an instruction word (R24, R25, R28, R70). -/
abbrev Word := BitVec 16

/-- The number of a general register, V0 to VF: every value of the 4-bit field names one (R21). -/
abbrev Reg := Fin 16

/-- V0, which Bnnn adds to its target (R108). -/
def v0 : Reg := 0

/-- VF, the flag register (R22). -/
def vF : Reg := 15

end Sys2Proof
end

