-- ==== Sys2Proof/Syntax.lean ====
section
/-! DEFINITION. The instructions: one constructor for each of the 34 rows of spec/30_encoding.md R75. An address operand
is held as the 16-bit value it stands for, zext_16(nnn) (R72); `WellFormed.lean` says which values fit the field. -/

namespace Sys2Proof

/-- The 34 instructions of R75, in its order. `x` and `y` are register numbers, `kk` a byte, `nnn` an address and `n` a
count of sprite rows (R71 to R73). -/
inductive Instr where
  /-- 00E0 CLS (R90). -/
  | cls
  /-- 00EE RET (R101). -/
  | ret
  /-- 1nnn JP nnn (R102). -/
  | jpNnn (nnn : Word)
  /-- 2nnn CALL nnn (R103). -/
  | callNnn (nnn : Word)
  /-- 3xkk SE Vx, kk (R104). -/
  | seVxKk (x : Reg) (kk : Byte)
  /-- 4xkk SNE Vx, kk (R105). -/
  | sneVxKk (x : Reg) (kk : Byte)
  /-- 5xy0 SE Vx, Vy (R106). -/
  | seVxVy (x y : Reg)
  /-- 6xkk LD Vx, kk (R121). -/
  | ldVxKk (x : Reg) (kk : Byte)
  /-- 7xkk ADD Vx, kk (R122). -/
  | addVxKk (x : Reg) (kk : Byte)
  /-- 8xy0 LD Vx, Vy (R123). -/
  | ldVxVy (x y : Reg)
  /-- 8xy1 OR Vx, Vy (R124). -/
  | orVxVy (x y : Reg)
  /-- 8xy2 AND Vx, Vy (R125). -/
  | andVxVy (x y : Reg)
  /-- 8xy3 XOR Vx, Vy (R126). -/
  | xorVxVy (x y : Reg)
  /-- 8xy4 ADD Vx, Vy (R127). -/
  | addVxVy (x y : Reg)
  /-- 8xy5 SUB Vx, Vy (R128). -/
  | subVxVy (x y : Reg)
  /-- 8xy6 SHR Vx (R129). The y field is no operand (R77). -/
  | shrVx (x : Reg)
  /-- 8xy7 SUBN Vx, Vy (R130). -/
  | subnVxVy (x y : Reg)
  /-- 8xyE SHL Vx (R131). The y field is no operand (R77). -/
  | shlVx (x : Reg)
  /-- 9xy0 SNE Vx, Vy (R107). -/
  | sneVxVy (x y : Reg)
  /-- Annn LD I, nnn (R140). -/
  | ldINnn (nnn : Word)
  /-- Bnnn JP V0, nnn (R108). -/
  | jpV0Nnn (nnn : Word)
  /-- Cxkk RND Vx, kk (R132). -/
  | rndVxKk (x : Reg) (kk : Byte)
  /-- Dxyn DRW Vx, Vy, n (R91). -/
  | drwVxVyN (x y : Reg) (n : Nat)
  /-- Ex9E SKP Vx (R150). -/
  | skpVx (x : Reg)
  /-- ExA1 SKNP Vx (R151). -/
  | sknpVx (x : Reg)
  /-- Fx07 LD Vx, DT (R153). -/
  | ldVxDt (x : Reg)
  /-- Fx0A LD Vx, K (R152). -/
  | ldVxK (x : Reg)
  /-- Fx15 LD DT, Vx (R154). -/
  | ldDtVx (x : Reg)
  /-- Fx18 LD ST, Vx (R155). -/
  | ldStVx (x : Reg)
  /-- Fx1E ADD I, Vx (R141). -/
  | addIVx (x : Reg)
  /-- Fx29 LD F, Vx (R142). -/
  | ldFVx (x : Reg)
  /-- Fx33 LD B, Vx (R143). -/
  | ldBVx (x : Reg)
  /-- Fx55 LD [I], Vx (R144). -/
  | ldMemVx (x : Reg)
  /-- Fx65 LD Vx, [I] (R145). -/
  | ldVxMem (x : Reg)
deriving DecidableEq, Repr

end Sys2Proof
end

