-- ==== Sys2Proof/WellFormed.lean ====
section
/-! DEFINITION. Which instructions have an encoding: an address operand fits its 12 bits and a sprite height its 4 bits
(spec/30_encoding.md R71, R72). Registers and bytes fit by their types
(log 34). -/

namespace Sys2Proof

/-- The address fits the 12-bit nnn field. -/
abbrev fitsNnn (a : Word) : Prop := a.toNat < 0x1000

/-- The sprite height fits the 4-bit n field. -/
abbrev fitsN (n : Nat) : Prop := n < 16

/-- Every operand fits the field that encodes it. -/
def Instr.wellFormed : Instr → Bool
  | .jpNnn a | .callNnn a | .ldINnn a | .jpV0Nnn a => decide (fitsNnn a)
  | .drwVxVyN _ _ n => decide (fitsN n)
  | .cls | .ret => true
  | .seVxKk _ _ | .sneVxKk _ _ | .ldVxKk _ _ | .addVxKk _ _ | .rndVxKk _ _ => true
  | .seVxVy _ _ | .sneVxVy _ _ | .ldVxVy _ _ | .orVxVy _ _ | .andVxVy _ _ | .xorVxVy _ _ => true
  | .addVxVy _ _ | .subVxVy _ _ | .subnVxVy _ _ | .shrVx _ | .shlVx _ => true
  | .skpVx _ | .sknpVx _ | .ldVxDt _ | .ldVxK _ | .ldDtVx _ | .ldStVx _ => true
  | .addIVx _ | .ldFVx _ | .ldBVx _ | .ldMemVx _ | .ldVxMem _ => true

end Sys2Proof
end

