-- ==== Sys2Proof/Decode.lean ====
section
/-! DEFINITION. The decoder of spec/30_encoding.md R71 to R78, total on every word, then the encoder of the same table,
and the table's match and mask columns (R75). -/

namespace Sys2Proof

/-- `b1 : b2`, the word of two fetched bytes: the byte at the lower address holds bits 15:8 (R55, R71). -/
def wordOfBytes (b1 b2 : Byte) : Word := BitVec.ofNat 16 (b1.toNat * 256 + b2.toNat)

/-- Bits 15:8 of a word, the byte stored at the lower address (R55). -/
def highByte (w : Word) : Byte := BitVec.ofNat 8 (w.toNat / 256)

/-- Bits 7:0 of a word, the byte stored at the higher address (R55). -/
def lowByte (w : Word) : Byte := BitVec.ofNat 8 w.toNat

/-- Class c, bits 15:12 (R71). -/
def classOf (w : Word) : Nat := w.toNat / 4096

/-- Field x, bits 11:8 (R71). -/
def fieldX (w : Word) : Reg := ⟨w.toNat / 256 % 16, Nat.mod_lt _ (by decide)⟩

/-- Field y, bits 7:4 (R71). -/
def fieldY (w : Word) : Reg := ⟨w.toNat / 16 % 16, Nat.mod_lt _ (by decide)⟩

/-- Field n, bits 3:0 (R71). -/
def fieldN (w : Word) : Nat := w.toNat % 16

/-- Field kk, bits 7:0 (R71). -/
def fieldKk (w : Word) : Byte := BitVec.ofNat 8 (w.toNat % 256)

/-- Field nnn, bits 11:0, zero-extended to 16 bits (R71, R72). -/
def fieldNnn (w : Word) : Word := BitVec.ofNat 16 (w.toNat % 4096)

/-- The four classes that hold unknown words (R78). -/
inductive UnknownClass where
  /-- Class 0x0 with kk other than 0xE0 and 0xEE; the 0nnn words are among them. -/
  | class0
  /-- Class 0x8 with n in 0x8 to 0xD or 0xF. -/
  | class8
  /-- Class 0xE with kk other than 0x9E and 0xA1. -/
  | classE
  /-- Class 0xF with kk none of its nine values. -/
  | classF
deriving DecidableEq, Repr

/-- What the decoder answers: an instruction, or by name the class of an unknown word. -/
inductive Decoded where
  /-- A word that one row of R75 selects. -/
  | known (i : Instr)
  /-- A word that no row selects, executed as a no-op (R79). -/
  | unknown (c : UnknownClass)
deriving DecidableEq, Repr

/-- The instruction, if there is one. -/
def Decoded.toOption : Decoded → Option Instr
  | .known i => some i
  | .unknown _ => none

/-- Class 0x0 is keyed by kk, x ignored (R74). -/
def decodeClass0 (w : Word) : Decoded :=
  if fieldKk w = 0xE0#8 then .known .cls
  else if fieldKk w = 0xEE#8 then .known .ret
  else .unknown .class0

/-- Class 0x8 is keyed by n (R76). -/
def decodeClass8 (w : Word) : Decoded :=
  if fieldN w = 0x0 then .known (.ldVxVy (fieldX w) (fieldY w))
  else if fieldN w = 0x1 then .known (.orVxVy (fieldX w) (fieldY w))
  else if fieldN w = 0x2 then .known (.andVxVy (fieldX w) (fieldY w))
  else if fieldN w = 0x3 then .known (.xorVxVy (fieldX w) (fieldY w))
  else if fieldN w = 0x4 then .known (.addVxVy (fieldX w) (fieldY w))
  else if fieldN w = 0x5 then .known (.subVxVy (fieldX w) (fieldY w))
  else if fieldN w = 0x6 then .known (.shrVx (fieldX w))
  else if fieldN w = 0x7 then .known (.subnVxVy (fieldX w) (fieldY w))
  else if fieldN w = 0xE then .known (.shlVx (fieldX w))
  else .unknown .class8

/-- Class 0xE is keyed by kk (R74). -/
def decodeClassE (w : Word) : Decoded :=
  if fieldKk w = 0x9E#8 then .known (.skpVx (fieldX w))
  else if fieldKk w = 0xA1#8 then .known (.sknpVx (fieldX w))
  else .unknown .classE

/-- Class 0xF is keyed by kk (R74). -/
def decodeClassF (w : Word) : Decoded :=
  if fieldKk w = 0x07#8 then .known (.ldVxDt (fieldX w))
  else if fieldKk w = 0x0A#8 then .known (.ldVxK (fieldX w))
  else if fieldKk w = 0x15#8 then .known (.ldDtVx (fieldX w))
  else if fieldKk w = 0x18#8 then .known (.ldStVx (fieldX w))
  else if fieldKk w = 0x1E#8 then .known (.addIVx (fieldX w))
  else if fieldKk w = 0x29#8 then .known (.ldFVx (fieldX w))
  else if fieldKk w = 0x33#8 then .known (.ldBVx (fieldX w))
  else if fieldKk w = 0x55#8 then .known (.ldMemVx (fieldX w))
  else if fieldKk w = 0x65#8 then .known (.ldVxMem (fieldX w))
  else .unknown .classF

/-- The decoder, a pure function of the word, with R74's dispatch key: the class, and a sub-field only in the classes
with more than one member. The bits it does not examine are don't-care bits (R77, D1; log 14). -/
def decode (w : Word) : Decoded :=
  if classOf w = 0x0 then decodeClass0 w
  else if classOf w = 0x1 then .known (.jpNnn (fieldNnn w))
  else if classOf w = 0x2 then .known (.callNnn (fieldNnn w))
  else if classOf w = 0x3 then .known (.seVxKk (fieldX w) (fieldKk w))
  else if classOf w = 0x4 then .known (.sneVxKk (fieldX w) (fieldKk w))
  else if classOf w = 0x5 then .known (.seVxVy (fieldX w) (fieldY w))
  else if classOf w = 0x6 then .known (.ldVxKk (fieldX w) (fieldKk w))
  else if classOf w = 0x7 then .known (.addVxKk (fieldX w) (fieldKk w))
  else if classOf w = 0x8 then decodeClass8 w
  else if classOf w = 0x9 then .known (.sneVxVy (fieldX w) (fieldY w))
  else if classOf w = 0xA then .known (.ldINnn (fieldNnn w))
  else if classOf w = 0xB then .known (.jpV0Nnn (fieldNnn w))
  else if classOf w = 0xC then .known (.rndVxKk (fieldX w) (fieldKk w))
  else if classOf w = 0xD then .known (.drwVxVyN (fieldX w) (fieldY w) (fieldN w))
  else if classOf w = 0xE then decodeClassE w
  else decodeClassF w

/-- The decoder on the two bytes a fetch reads, in the order of their addresses (R55, R71). -/
def decodeBytes (b1 b2 : Byte) : Decoded := decode (wordOfBytes b1 b2)

/-- The decoder on the bits of a row of spec/opcode_table.json: `nbits` bits, all higher ones 0, laid out as the two
bytes of memory that hold the word. -/
def decodeTableWord (nbits w : Nat) : Option Instr :=
  let word : Word := BitVec.ofNat 16 (w % 2 ^ nbits)
  (decodeBytes (highByte word) (lowByte word)).toOption

/-- The word of class c with the address nnn in bits 11:0 (R71). -/
def wordNnn (c : Nat) (nnn : Word) : Word := BitVec.ofNat 16 (c * 4096 + nnn.toNat)

/-- The word of class c with x in bits 11:8 and kk in bits 7:0 (R71). -/
def wordXKk (c : Nat) (x : Reg) (kk : Byte) : Word := BitVec.ofNat 16 (c * 4096 + x.val * 256 + kk.toNat)

/-- The word of class c with x in bits 11:8, y in bits 7:4 and n in bits 3:0 (R71). -/
def wordXYN (c : Nat) (x y : Reg) (n : Nat) : Word := BitVec.ofNat 16 (c * 4096 + x.val * 256 + y.val * 16 + n)

/-- The encoder, from the patterns of R75; a don't-care field is written as 0, the conventional spelling (C8). -/
def encode : Instr → Word
  | .cls => 0x00E0#16
  | .ret => 0x00EE#16
  | .jpNnn a => wordNnn 0x1 a
  | .callNnn a => wordNnn 0x2 a
  | .seVxKk x kk => wordXKk 0x3 x kk
  | .sneVxKk x kk => wordXKk 0x4 x kk
  | .seVxVy x y => wordXYN 0x5 x y 0x0
  | .ldVxKk x kk => wordXKk 0x6 x kk
  | .addVxKk x kk => wordXKk 0x7 x kk
  | .ldVxVy x y => wordXYN 0x8 x y 0x0
  | .orVxVy x y => wordXYN 0x8 x y 0x1
  | .andVxVy x y => wordXYN 0x8 x y 0x2
  | .xorVxVy x y => wordXYN 0x8 x y 0x3
  | .addVxVy x y => wordXYN 0x8 x y 0x4
  | .subVxVy x y => wordXYN 0x8 x y 0x5
  | .shrVx x => wordXYN 0x8 x 0 0x6
  | .subnVxVy x y => wordXYN 0x8 x y 0x7
  | .shlVx x => wordXYN 0x8 x 0 0xE
  | .sneVxVy x y => wordXYN 0x9 x y 0x0
  | .ldINnn a => wordNnn 0xA a
  | .jpV0Nnn a => wordNnn 0xB a
  | .rndVxKk x kk => wordXKk 0xC x kk
  | .drwVxVyN x y n => wordXYN 0xD x y n
  | .skpVx x => wordXKk 0xE x 0x9E#8
  | .sknpVx x => wordXKk 0xE x 0xA1#8
  | .ldVxDt x => wordXKk 0xF x 0x07#8
  | .ldVxK x => wordXKk 0xF x 0x0A#8
  | .ldDtVx x => wordXKk 0xF x 0x15#8
  | .ldStVx x => wordXKk 0xF x 0x18#8
  | .addIVx x => wordXKk 0xF x 0x1E#8
  | .ldFVx x => wordXKk 0xF x 0x29#8
  | .ldBVx x => wordXKk 0xF x 0x33#8
  | .ldMemVx x => wordXKk 0xF x 0x55#8
  | .ldVxMem x => wordXKk 0xF x 0x65#8

/-- The match and mask columns of one row of R75: the row selects a word w when `w & mask == match`. -/
structure OpcodeRow where
  bits : Word
  mask : Word
deriving DecidableEq, Repr

/-- The row selects the word (R75). -/
abbrev OpcodeRow.selects (r : OpcodeRow) (w : Word) : Prop := w &&& r.mask = r.bits

/-- The row of R75 that stands for an instruction, its match and mask as the table prints them. -/
def Instr.row : Instr → OpcodeRow
  | .cls => ⟨0x00E0, 0xF0FF⟩
  | .ret => ⟨0x00EE, 0xF0FF⟩
  | .jpNnn _ => ⟨0x1000, 0xF000⟩
  | .callNnn _ => ⟨0x2000, 0xF000⟩
  | .seVxKk _ _ => ⟨0x3000, 0xF000⟩
  | .sneVxKk _ _ => ⟨0x4000, 0xF000⟩
  | .seVxVy _ _ => ⟨0x5000, 0xF000⟩
  | .ldVxKk _ _ => ⟨0x6000, 0xF000⟩
  | .addVxKk _ _ => ⟨0x7000, 0xF000⟩
  | .ldVxVy _ _ => ⟨0x8000, 0xF00F⟩
  | .orVxVy _ _ => ⟨0x8001, 0xF00F⟩
  | .andVxVy _ _ => ⟨0x8002, 0xF00F⟩
  | .xorVxVy _ _ => ⟨0x8003, 0xF00F⟩
  | .addVxVy _ _ => ⟨0x8004, 0xF00F⟩
  | .subVxVy _ _ => ⟨0x8005, 0xF00F⟩
  | .shrVx _ => ⟨0x8006, 0xF00F⟩
  | .subnVxVy _ _ => ⟨0x8007, 0xF00F⟩
  | .shlVx _ => ⟨0x800E, 0xF00F⟩
  | .sneVxVy _ _ => ⟨0x9000, 0xF000⟩
  | .ldINnn _ => ⟨0xA000, 0xF000⟩
  | .jpV0Nnn _ => ⟨0xB000, 0xF000⟩
  | .rndVxKk _ _ => ⟨0xC000, 0xF000⟩
  | .drwVxVyN _ _ _ => ⟨0xD000, 0xF000⟩
  | .skpVx _ => ⟨0xE09E, 0xF0FF⟩
  | .sknpVx _ => ⟨0xE0A1, 0xF0FF⟩
  | .ldVxDt _ => ⟨0xF007, 0xF0FF⟩
  | .ldVxK _ => ⟨0xF00A, 0xF0FF⟩
  | .ldDtVx _ => ⟨0xF015, 0xF0FF⟩
  | .ldStVx _ => ⟨0xF018, 0xF0FF⟩
  | .addIVx _ => ⟨0xF01E, 0xF0FF⟩
  | .ldFVx _ => ⟨0xF029, 0xF0FF⟩
  | .ldBVx _ => ⟨0xF033, 0xF0FF⟩
  | .ldMemVx _ => ⟨0xF055, 0xF0FF⟩
  | .ldVxMem _ => ⟨0xF065, 0xF0FF⟩

end Sys2Proof
end

