-- ==== Sys2Proof/Config.lean ====
section
/-! DEFINITION. What is fixed for the machine: the sizes of spec/00_scope.md R9, the FONT parameter, and the two
free values of R10 (MEM_INIT and the random draw), which have no body, so that nothing can be proved of them. -/

namespace Sys2Proof.Config

/-- MEM_SIZE: addresses 0x000 to 0xFFF (R9). -/
def memSize : Nat := 4096

/-- STACK_DEPTH (R9, R28). -/
def stackDepth : Nat := 16

/-- FB_W (R9, R30). -/
def fbWidth : Nat := 64

/-- FB_H (R9, R30). -/
def fbHeight : Nat := 32

/-- NUM_KEYS: keys 0x0 to 0xF (R9, R31). -/
def numKeys : Nat := 16

/-- FONT_BASE (R9, R58). -/
def fontBase : Nat := 0x050

/-- FONT_SIZE: 16 glyphs of 5 bytes (R9, R58). -/
def fontSize : Nat := 80

/-- The glyph stride of Fx29 is 5, not 6 (R142, spec/90_conflicts.md C4). -/
def glyphStride : Nat := 5

/-- ROM_BASE, also the entry point (R9, R193). -/
def romBase : Nat := 0x200

/-- ROM_MAX (R9, R191). -/
def romMax : Nat := 3584

/-- The glyphs 0 to 7 of `font`. -/
def fontLow : List Byte :=
  [0xF0, 0x90, 0x90, 0x90, 0xF0,  0x20, 0x60, 0x20, 0x20, 0x70,
   0xF0, 0x10, 0xF0, 0x80, 0xF0,  0xF0, 0x10, 0xF0, 0x10, 0xF0,
   0x90, 0x90, 0xF0, 0x10, 0x10,  0xF0, 0x80, 0xF0, 0x10, 0xF0,
   0xF0, 0x80, 0xF0, 0x90, 0xF0,  0xF0, 0x10, 0x20, 0x40, 0x40]

/-- The glyphs 8 to F of `font`. -/
def fontHigh : List Byte :=
  [0xF0, 0x90, 0xF0, 0x90, 0xF0,  0xF0, 0x90, 0xF0, 0x10, 0xF0,
   0xF0, 0x90, 0xF0, 0x90, 0x90,  0xE0, 0x90, 0xE0, 0x90, 0xE0,
   0xF0, 0x80, 0x80, 0x80, 0xF0,  0xE0, 0x90, 0x90, 0x90, 0xE0,
   0xF0, 0x80, 0xF0, 0x80, 0xF0,  0xF0, 0x80, 0xF0, 0x80, 0x80]

/-- FONT, the 80 font bytes, glyph g at offset 5*g: the default that spec/92_eei_decisions.md D15 decides, its bytes
those of spec/93_implementation_defined.md B2. PRESUMED (unsafe): the source does not give the bytes. Log 2. -/
def font : List Byte := fontLow ++ fontHigh

/-- MEM_INIT (R10, R190): what a byte of memory outside the font and the loaded ROM holds at load. The spec leaves it
OPEN (D14), so it is a free value: no body, and no proof can see what it is (safe). Log 1. -/
opaque memInit : Nat → Byte

/-- The free value of RAND (R10, R132): the `n`th random byte the machine draws that no host has named. No law holds
of it (D16), so it has no body (safe). Log 3. -/
opaque freeRand : Nat → Byte

end Sys2Proof.Config
end

