-- ==== Sys2Proof/Machine/State.lean ====
section
/-! DEFINITION. The state of the machine (spec/10_state.md R20) and its value at reset (R38), the two reasons a step of the
host's interface may stop, and the types the state is made of. -/

namespace Sys2Proof.Machine

/-- MEM as the bytes that were written since LOAD or copied by it: pairs of address and byte, addresses strictly
rising. What an unlisted address reads as is `Memory.unlisted` (log 1, 2, 5). -/
abbrev Memory := List Host.Cell

/-- FB, the 64 x 32 grid of one-bit pixels, held as 32 rows of 64 columns (R30; log 36). -/
abbrev Framebuffer := Vector (Vector Bool 64) 32

/-- What halted the machine (R32, R160). -/
inductive FaultCode where
  /-- Code 0: the machine runs. -/
  | none
  /-- Code 1, raised by 2nnn with SP = 16 (R162). -/
  | stackOverflow
  /-- Code 2, raised by 00EE with SP = 0 (R163). -/
  | stackUnderflow
  /-- Code 3, raised by a fetch, Dxyn, Fx33, Fx55 or Fx65 that reaches above 0xFFF (R164). -/
  | memoryOutOfRange
  /-- Code 4, raised by Ex9E, ExA1 or Fx0A with Vx above 0xF (R165). -/
  | keyIndexOutOfRange
deriving DecidableEq, Repr

/-- The FAULT register, the core's only status register (R32). -/
structure FaultReg where
  code : FaultCode
  /-- The fetch address of the step that faulted. -/
  pc : Word
  /-- The first address out of range, the key index, or 0. -/
  info : Word
deriving DecidableEq, Repr

/-- The state of R20, and after it the two fields the model adds to carry the RAND input (log 3). -/
structure State where
  /-- MEM, 4096 bytes (R50). -/
  mem : Memory
  /-- V0 to VF (R21); VF is number 15 (R22). -/
  v : Vector Byte 16
  /-- The index register I (R24). -/
  i : Word
  /-- PC (R25): between steps, the address of the next fetch. -/
  pc : Word
  /-- The delay timer DT (R26). -/
  dt : Byte
  /-- The sound timer ST (R27). -/
  st : Byte
  /-- The call stack, its top first (R28; log 35). -/
  stack : List Word
  /-- The framebuffer FB (R30). -/
  fb : Framebuffer
  /-- The key latch KEY, bit k for key k (R31, R175). -/
  key : BitVec 16
  /-- The FAULT register (R32). -/
  fault : FaultReg
  /-- The model's own: the RAND bytes a host has named for the next executions of Cxkk, first first (R178; log 3). -/
  randIn : List Byte
  /-- The model's own: how many free random draws were made (log 3). -/
  draws : Nat
deriving DecidableEq, Repr

/-- Reasons for the host's outcome `fault`. There are none: every fault the spec names is entered as R161 describes, with
the state restored and FAULT written, and that is a next state (log 6). -/
inductive Fault
deriving DecidableEq, Repr

/-- Reasons for the host's outcome `refused`. -/
inductive Refusal where
  /-- Raised by `exec` for an instruction that has no meaning yet (safe). No arm of this model raises it. -/
  | notModelled (mnemonic : String)
deriving DecidableEq, Repr

/-- FAULT after LOAD: code NONE, pc 0, info 0 (R32, R38). -/
def FaultReg.clear : FaultReg := ⟨.none, 0, 0⟩

/-- FB after LOAD: every pixel off (R38). -/
def Framebuffer.blank : Framebuffer := Vector.replicate 32 (Vector.replicate 64 false)

/-- The machine right after reset, which is LOAD of the empty ROM (R38, R190, R191; log 11): registers and timers zero, PC
0x200, the stack empty, the framebuffer off, no key pressed (log 12), no fault (log 13), no byte of memory written over
the font and MEM_INIT. The last two fields are the model's own (log 4). -/
def State.reset : State where
  mem := []
  v := Vector.replicate 16 0
  i := 0
  pc := 0x200
  dt := 0
  st := 0
  stack := []
  fb := Framebuffer.blank
  key := 0
  fault := FaultReg.clear
  randIn := []
  draws := 0

end Sys2Proof.Machine
end

