-- ==== Sys2Proof/Machine/Framebuffer.lean ====
section
/-! DEFINITION. The framebuffer controller of spec/40_display.md: reading a pixel, clearing, and the XOR of a sprite with
clipping at the right and bottom edges (R90 to R92). -/

namespace Sys2Proof.Machine

/-- FB[col][row] (R30). There is no pixel outside the grid, and reading there answers off (log 36). -/
def Framebuffer.pixel (fb : Framebuffer) (col row : Nat) : Bool :=
  if h : col < 64 ∧ row < 32 then (fb[row]'h.2)[col]'h.1 else false

/-- `FB[col][row] <- FB[col][row] xor 1` (R91). -/
def Framebuffer.toggle (fb : Framebuffer) (col row : Nat) : Framebuffer :=
  if h : col < 64 ∧ row < 32 then
    fb.set row ((fb[row]'h.2).set col (!((fb[row]'h.2)[col]'h.1)) h.1) h.2
  else fb

/-- A framebuffer while a sprite is drawn, with the collision bit so far. -/
structure Drawing where
  fb : Framebuffer
  collision : Bool
deriving DecidableEq, Repr

/-- Column j of a sprite row is bit 7 - j of its byte: the most significant bit is leftmost (R91, D9; log 22). -/
def spriteBit (row : Byte) (j : Nat) : Bool := row.getLsbD (7 - j)

/-- Toggle one pixel: the collision bit is set when the pixel was on, and never reset (R91). -/
def Drawing.flip (d : Drawing) (col row : Nat) : Drawing :=
  ⟨d.fb.toggle col row, d.collision || d.fb.pixel col row⟩

/-- The columns of one sprite row, from the first of `js` on, at grid row `r`: "stop processing further columns in this
row" at the right edge (R91). -/
def drawColumns (vx r : Nat) (row : Byte) : List Nat → Drawing → Drawing
  | [], d => d
  | j :: js, d =>
    if Config.fbWidth ≤ vx + j then d
    else drawColumns vx r row js (if spriteBit row j then d.flip (vx + j) r else d)

/-- The rows of a sprite, its bytes from the top, the first at grid row `r`: "stop processing further rows" at the bottom
edge (R91). -/
def drawRows (vx : Nat) : Nat → List Byte → Drawing → Drawing
  | _, [], d => d
  | r, row :: rows, d =>
    if Config.fbHeight ≤ r then d
    else drawRows vx (r + 1) rows (drawColumns vx r row (List.range 8) d)

/-- Draw a sprite at column `vx`, row `vy`; the sums with the offsets are unbounded (R91, D10). -/
def drawSprite (vx vy : Nat) (sprite : List Byte) (fb : Framebuffer) : Drawing :=
  drawRows vx vy sprite ⟨fb, false⟩

end Sys2Proof.Machine
end

