-- ==== Sys2Proof/Machine/Memory.lean ====
section
/-! DEFINITION. The memory of spec/20_memory.md: one byte per access (R52), every byte readable and writable (R59), held
in one canonical form. -/

namespace Sys2Proof.Machine

/-- What an unlisted address holds: the font byte in 0x050..0x09F (R58), and elsewhere no value the model knows, MEM_INIT
(R10, D14; log 1). -/
def Memory.unlisted (a : Nat) : Option Byte :=
  if Config.fontBase ≤ a ∧ a < Config.fontBase + Config.fontSize then Config.font[a - Config.fontBase]? else none

/-- The byte listed at an address. -/
def Memory.listed : Memory → Nat → Option Byte
  | [], _ => none
  | (c, d) :: m, a => if c = a then some d else Memory.listed m a

/-- The byte of an address as far as the model knows it: the listed one, else what an unlisted address holds. -/
def Memory.known (m : Memory) (a : Nat) : Option Byte :=
  (m.listed a).or (Memory.unlisted a)

/-- MemRead(a, 1) for an address up to 0xFFF (R52). Without side effect. -/
def Memory.read (m : Memory) (a : Nat) : Byte :=
  (m.known a).getD (Config.memInit a)

/-- List a byte at an address, in the place the rising order gives it. -/
def Memory.insert (a : Nat) (b : Byte) : Memory → Memory
  | [] => [(a, b)]
  | (c, d) :: m =>
    if a < c then (a, b) :: (c, d) :: m
    else if a = c then (a, b) :: m
    else (c, d) :: Memory.insert a b m

/-- Take the entry of an address out of the list. -/
def Memory.erase (a : Nat) : Memory → Memory
  | [] => []
  | (c, d) :: m => if a = c then Memory.erase a m else (c, d) :: Memory.erase a m

/-- MemWrite(a, 1, b): only the byte addressed changes (R52). Writing what an unlisted address holds takes the entry out.
Every caller has checked its addresses (R54); above 0xFFF there is no byte to write (log 37). -/
def Memory.write (a : Nat) (b : Byte) (m : Memory) : Memory :=
  if Config.memSize ≤ a then m
  else if Memory.unlisted a = some b then Memory.erase a m
  else Memory.insert a b m

/-- MemWrite of consecutive bytes in increasing address order from `base` (R54, R55). -/
def Memory.writeBytes (base : Nat) : List Byte → Memory → Memory
  | [], m => m
  | b :: bs, m => Memory.writeBytes (base + 1) bs (Memory.write base b m)

/-- One entry of a memory is one it may hold: an address of the space, and not what that address holds unlisted. -/
abbrev Memory.cellOk (c : Host.Cell) : Prop := c.1 < Config.memSize ∧ Memory.unlisted c.1 ≠ some c.2

/-- The canonical form: addresses strictly rising, every entry one it may hold (log 5). -/
abbrev Memory.wf (m : Memory) : Prop :=
  m.Pairwise (fun c d => c.1 < d.1) ∧ ∀ c ∈ m, Memory.cellOk c

end Sys2Proof.Machine
end

