-- ==== Sys2Proof/Machine/Ops.lean ====
section
/-! DEFINITION. The named operations over the state: reads and writes of each register, the step's advance, raising a
fault and the checks that raise one, and the call stack. -/

namespace Sys2Proof.Machine

/-- V[r] (R21). -/
def State.reg (s : State) (r : Reg) : Byte := s.v[r.val]

/-- `V[r] <- b`. -/
def State.setReg (s : State) (r : Reg) (b : Byte) : State := { s with v := s.v.set r b }

/-- `I <- w`. -/
def State.setI (s : State) (w : Word) : State := { s with i := w }

/-- `pc <- w`. -/
def State.setPc (s : State) (w : Word) : State := { s with pc := w }

/-- `DT <- b`. -/
def State.setDt (s : State) (b : Byte) : State := { s with dt := b }

/-- `ST <- b`. -/
def State.setSt (s : State) (b : Byte) : State := { s with st := b }

/-- Replace the memory. -/
def State.setMem (s : State) (m : Memory) : State := { s with mem := m }

/-- Replace the framebuffer. -/
def State.setFb (s : State) (fb : Framebuffer) : State := { s with fb := fb }

/-- Replace the call stack. -/
def State.setStack (s : State) (stack : List Word) : State := { s with stack := stack }

/-- MEM[a] in a state. -/
def State.byteAt (s : State) (a : Nat) : Byte := s.mem.read a

/-- PC after the step's own advance and, once more, after a taken skip (R25, R81, R100). 16 bits; it never wraps from a
PC that a fetch accepts (R39; log 38). -/
def State.advance (s : State) : State := s.setPc (s.pc + 2)

/-- The bytes MEM[base], MEM[base + 1], ..., `n` of them. -/
def State.bytesFrom (s : State) (base n : Nat) : List Byte := (List.range n).map fun k => s.byteAt (base + k)

/-! ### Faults -/

/-- The machine is halted: FAULT.code is not NONE (R168). -/
abbrev State.halted (s : State) : Prop := s.fault.code ≠ FaultCode.none

/-- FAULT.code as the host reads it, 3 bits (R32, R160; log 13). -/
def FaultCode.toBits : FaultCode → BitVec 3
  | .none => 0
  | .stackOverflow => 1
  | .stackUnderflow => 2
  | .memoryOutOfRange => 3
  | .keyIndexOutOfRange => 4

/-- The state after a fault raised in the step that began in `s`, its PC the fetch address: nothing the step did survives,
and FAULT records the code, the fetch address and the info (R161, R81; log 19). -/
def State.withFault (s : State) (code : FaultCode) (info : Word) : State := { s with fault := ⟨code, s.pc, info⟩ }

/-- `raise code(info)`: fault entry, a next state (R161; log 6). -/
def raise (code : FaultCode) (info : Word) (s : State) : Host.Outcome State Fault Refusal :=
  .next (s.withFault code info)

/-- ACCESS_CHECK of `n` addresses from `base`, in increasing order: the first one above 0xFFF (R53, R54). -/
def accessCheck (base n : Nat) : Option Nat := (List.range' base n).find? fun a => decide (Config.memSize ≤ a)

/-- Check `n` addresses from `base` before any access: raise MemoryOutOfRange with the lowest address out of range, or go on
to `after` (R54, R164; log 20). -/
def withAccess (base n : Nat) (s after : State) : Host.Outcome State Fault Refusal :=
  match accessCheck base n with
  | some a => raise .memoryOutOfRange (BitVec.ofNat 16 a) s
  | none => .next after

/-- KEY_CHECK: raise KeyIndexOutOfRange for an index above 0xF, or go on to `after` (spec/44_keys_timers.md; R165; log 21). -/
def withKeyCheck (k : Byte) (s after : State) : Host.Outcome State Fault Refusal :=
  if Config.numKeys ≤ k.toNat then raise .keyIndexOutOfRange (BitVec.ofNat 16 k.toNat) s else .next after

/-! ### The call stack -/

/-- Push(w): raise StackOverflow when SP = 16, or go on from `after` with `w` on top (R28, R162; log 18). -/
def withPush (w : Word) (s after : State) : Host.Outcome State Fault Refusal :=
  if Config.stackDepth ≤ s.stack.length then raise .stackOverflow 0 s else .next (after.setStack (w :: s.stack))

/-- Pop(): raise StackUnderflow when SP = 0, or go on with the top entry in PC (R28, R101, R163). -/
def withPop (s : State) : Host.Outcome State Fault Refusal :=
  match s.stack with
  | [] => raise .stackUnderflow 0 s
  | w :: rest => .next ((s.setStack rest).setPc w)

/-! ### The RAND input -/

/-- The random byte the next execution of Cxkk draws: the one the host has named, or a free value (R132, R178; log 3). -/
def State.rand (s : State) : Byte :=
  match s.randIn with
  | r :: _ => r
  | [] => Config.freeRand s.draws

/-- The draw is consumed (R132). -/
def State.consumeRand (s : State) : State :=
  match s.randIn with
  | _ :: rs => { s with randIn := rs }
  | [] => { s with draws := s.draws + 1 }

end Sys2Proof.Machine
end

