-- ==== Sys2Proof/Machine/Flags.lean ====
section
/-! DEFINITION. Results and VF flags of spec/42_alu.md R120 and spec/43_index_memory.md R141: results are truncations of
unbounded sums, flags are exactly 0 or 1 and come from the values before the instruction. -/

namespace Sys2Proof.Machine

/-- A flag value, exactly 0 or 1 (R120). -/
def flagByte (b : Bool) : Byte := if b then 1 else 0

/-- trunc_8(a + b) (R122, R127). -/
def addResult (a b : Byte) : Byte := BitVec.ofNat 8 (a.toNat + b.toNat)

/-- The carry of a + b, from the sum before truncation (R127). -/
def addCarry (a b : Byte) : Bool := decide (255 < a.toNat + b.toNat)

/-- trunc_8(a - b + 256) (R128, R130). -/
def subResult (a b : Byte) : Byte := BitVec.ofNat 8 (a.toNat + 256 - b.toNat)

/-- SUB's flag: no borrow, a >= b (R128). -/
def subNoBorrow (a b : Byte) : Bool := decide (b.toNat ≤ a.toNat)

/-- SUBN's flag: Vy > Vx, strictly (R130, spec/90_conflicts.md C5; log 32). -/
def subnFlag (vx vy : Byte) : Bool := decide (vx.toNat < vy.toNat)

/-- a >> 1, zero entering bit 7 (R129). -/
def shrResult (a : Byte) : Byte := BitVec.ofNat 8 (a.toNat / 2)

/-- Bit 0 before the shift (R129). -/
def shrFlag (a : Byte) : Bool := a.getLsbD 0

/-- trunc_8(a << 1), zero entering bit 0 (R131). -/
def shlResult (a : Byte) : Byte := BitVec.ofNat 8 (a.toNat * 2)

/-- Bit 7 before the shift (R131). -/
def shlFlag (a : Byte) : Bool := a.getLsbD 7

/-- trunc_16(I + Vx): 16 bits, not 12 (R141). -/
def indexSum (i : Word) (b : Byte) : Word := BitVec.ofNat 16 (i.toNat + b.toNat)

/-- The flag of Fx1E: the sum before truncation exceeds 0xFFF (R141). -/
def indexFlag (i : Word) (b : Byte) : Bool := decide (0xFFF < i.toNat + b.toNat)

/-- `V[0xF] <- flag`. -/
def State.setFlag (s : State) (f : Bool) : State := s.setReg vF (flagByte f)

/-- The result first, the flag second, so that VF holds the flag when x = 0xF (R120, D2; log 16). -/
def State.setResultFlag (s : State) (x : Reg) (result : Byte) (f : Bool) : State := (s.setReg x result).setFlag f

end Sys2Proof.Machine
end

