-- ==== Sys2Proof/Machine/Operands.lean ====
section
/-! DEFINITION. The operand forms of spec/30_encoding.md R72 and R73 and the one addressing mode of
spec/43_index_memory.md: registers by number, a key index in a register, a register range, an address in I. -/

namespace Sys2Proof.Machine

/-- I as the unbounded base of an access (R53). -/
def State.base (s : State) : Nat := s.i.toNat

/-- V[0..x], the registers Fx55 stores (R73, R144). -/
def State.regsUpTo (s : State) (x : Reg) : List Byte := s.v.toList.take (x.val + 1)

/-- How many bytes Fx55 and Fx65 move (R73). -/
def rangeCount (x : Reg) : Nat := x.val + 1

/-- `V[k] <- MEM[base + k]` for k in 0..x, the other registers kept (R145). -/
def State.loadRegs (s : State) (base : Nat) (x : Reg) : State :=
  { s with v := Vector.ofFn fun k : Reg =>
      if k ≤ x then s.byteAt (base + k.val) else s.reg k }

/-- KEY[k] for the key index a register holds (R31, R73). -/
def State.keyDown (s : State) (k : Byte) : Bool := s.key.getLsbD k.toNat

/-- The target of Bnnn: the sum is not reduced to 12 bits (R108). -/
def indexedTarget (nnn : Word) (b : Byte) : Word := BitVec.ofNat 16 (nnn.toNat + b.toNat)

/-- The address of the glyph of a digit, stride 5; the digit is not masked to 4 bits (R142). -/
def glyphAddress (digit : Byte) : Word := BitVec.ofNat 16 (Config.fontBase + digit.toNat * Config.glyphStride)

/-- The three decimal digits of a byte, hundreds first (R143). -/
def bcdDigits (b : Byte) : List Byte :=
  [BitVec.ofNat 8 (b.toNat / 100), BitVec.ofNat 8 (b.toNat / 10 % 10), BitVec.ofNat 8 (b.toNat % 10)]

/-- Skip the next word when the condition holds (R100). -/
def State.skipIf (s : State) (taken : Bool) : State := if taken then s.advance else s

end Sys2Proof.Machine
end

