-- ==== Sys2Proof/Machine/Alu.lean ====
section
/-! DEFINITION. The register and ALU instructions, spec/42_alu.md. None raises a fault; those with a flag write the result
first and VF second (R120). -/

namespace Sys2Proof.Machine

/-- LD Vx, kk (R121). -/
def execLdVxKk (x : Reg) (kk : Byte) (s : State) : Host.Outcome State Fault Refusal := .next (s.advance.setReg x kk)

/-- ADD Vx, kk: wraps, no flag (R122). -/
def execAddVxKk (x : Reg) (kk : Byte) (s : State) : Host.Outcome State Fault Refusal :=
  .next (s.advance.setReg x (addResult (s.reg x) kk))

/-- LD Vx, Vy (R123). -/
def execLdVxVy (x y : Reg) (s : State) : Host.Outcome State Fault Refusal := .next (s.advance.setReg x (s.reg y))

/-- OR Vx, Vy: VF is not reset (R124, D3; log 17). -/
def execOrVxVy (x y : Reg) (s : State) : Host.Outcome State Fault Refusal :=
  .next (s.advance.setReg x (s.reg x ||| s.reg y))

/-- AND Vx, Vy: VF is not reset (R125, D3; log 17). -/
def execAndVxVy (x y : Reg) (s : State) : Host.Outcome State Fault Refusal :=
  .next (s.advance.setReg x (s.reg x &&& s.reg y))

/-- XOR Vx, Vy: VF is not reset (R126, D3; log 17). -/
def execXorVxVy (x y : Reg) (s : State) : Host.Outcome State Fault Refusal :=
  .next (s.advance.setReg x (s.reg x ^^^ s.reg y))

/-- ADD Vx, Vy: VF is the carry (R127). -/
def execAddVxVy (x y : Reg) (s : State) : Host.Outcome State Fault Refusal :=
  .next (s.advance.setResultFlag x (addResult (s.reg x) (s.reg y)) (addCarry (s.reg x) (s.reg y)))

/-- SUB Vx, Vy: Vx - Vy, VF is not-borrow (R128). -/
def execSubVxVy (x y : Reg) (s : State) : Host.Outcome State Fault Refusal :=
  .next (s.advance.setResultFlag x (subResult (s.reg x) (s.reg y)) (subNoBorrow (s.reg x) (s.reg y)))

/-- SHR Vx: VF is the old bit 0 (R129). -/
def execShrVx (x : Reg) (s : State) : Host.Outcome State Fault Refusal :=
  .next (s.advance.setResultFlag x (shrResult (s.reg x)) (shrFlag (s.reg x)))

/-- SUBN Vx, Vy: Vy - Vx, VF is Vy > Vx (R130). -/
def execSubnVxVy (x y : Reg) (s : State) : Host.Outcome State Fault Refusal :=
  .next (s.advance.setResultFlag x (subResult (s.reg y) (s.reg x)) (subnFlag (s.reg x) (s.reg y)))

/-- SHL Vx: VF is the old bit 7 (R131). -/
def execShlVx (x : Reg) (s : State) : Host.Outcome State Fault Refusal :=
  .next (s.advance.setResultFlag x (shlResult (s.reg x)) (shlFlag (s.reg x)))

/-- RND Vx, kk: the draw is consumed (R132). -/
def execRndVxKk (x : Reg) (kk : Byte) (s : State) : Host.Outcome State Fault Refusal :=
  .next (s.advance.consumeRand.setReg x (s.rand &&& kk))

end Sys2Proof.Machine
end

