-- ==== Sys2Proof/Machine/Control.lean ====
section
/-! DEFINITION. The control-flow instructions, spec/41_control_flow.md. A transfer takes effect for the very next step and no
target is checked when it is set (R100). -/

namespace Sys2Proof.Machine

/-- RET: pop the call stack into PC (R101). -/
def execRet (s : State) : Host.Outcome State Fault Refusal := withPop s

/-- JP nnn (R102). -/
def execJpNnn (nnn : Word) (s : State) : Host.Outcome State Fault Refusal := .next (s.setPc nnn)

/-- CALL nnn: push the address after this instruction, then jump (R103). -/
def execCallNnn (nnn : Word) (s : State) : Host.Outcome State Fault Refusal :=
  withPush s.advance.pc s (s.setPc nnn)

/-- SE Vx, kk: skip if equal (R104). -/
def execSeVxKk (x : Reg) (kk : Byte) (s : State) : Host.Outcome State Fault Refusal :=
  .next (s.advance.skipIf (decide (s.reg x = kk)))

/-- SNE Vx, kk: skip if different (R105). -/
def execSneVxKk (x : Reg) (kk : Byte) (s : State) : Host.Outcome State Fault Refusal :=
  .next (s.advance.skipIf (decide (s.reg x ≠ kk)))

/-- SE Vx, Vy: skip if equal (R106). -/
def execSeVxVy (x y : Reg) (s : State) : Host.Outcome State Fault Refusal :=
  .next (s.advance.skipIf (decide (s.reg x = s.reg y)))

/-- SNE Vx, Vy: skip if different (R107). -/
def execSneVxVy (x y : Reg) (s : State) : Host.Outcome State Fault Refusal :=
  .next (s.advance.skipIf (decide (s.reg x ≠ s.reg y)))

/-- JP V0, nnn: always V0, never Vx (R108). -/
def execJpV0Nnn (nnn : Word) (s : State) : Host.Outcome State Fault Refusal :=
  .next (s.setPc (indexedTarget nnn (s.reg v0)))

end Sys2Proof.Machine
end

