-- ==== Sys2Proof/Machine/Display.lean ====
section
/-! DEFINITION. The display instructions, spec/40_display.md. Every meaning of this and the other instruction files is given
the state whose PC is the fetch address and makes the step's advance itself (R81; log 9). -/

namespace Sys2Proof.Machine

/-- CLS: every pixel off (R90). -/
def execCls (s : State) : Host.Outcome State Fault Refusal := .next (s.advance.setFb Framebuffer.blank)

/-- DRW's effect once its addresses are checked: the sprite's pixels, then VF, written last (R91, D11; log 23). -/
def drawEffect (x y : Reg) (n : Nat) (s : State) : State :=
  let d := drawSprite (s.reg x).toNat (s.reg y).toNat (s.bytesFrom s.base n) s.fb
  (s.advance.setFb d.fb).setFlag d.collision

/-- DRW Vx, Vy, n: all n addresses are checked first, clipped rows too (R91, D12; log 23). -/
def execDrwVxVyN (x y : Reg) (n : Nat) (s : State) : Host.Outcome State Fault Refusal :=
  withAccess s.base n s (drawEffect x y n s)

end Sys2Proof.Machine
end

