-- ==== Sys2Proof/Machine/Index.lean ====
section
/-! DEFINITION. The index register and memory instructions, spec/43_index_memory.md. No access modifies I. -/

namespace Sys2Proof.Machine

/-- LD I, nnn (R140). -/
def execLdINnn (nnn : Word) (s : State) : Host.Outcome State Fault Refusal := .next (s.advance.setI nnn)

/-- ADD I, Vx: VF flags a sum beyond 0xFFF and is written last (R141, D2; log 16). -/
def execAddIVx (x : Reg) (s : State) : Host.Outcome State Fault Refusal :=
  .next ((s.advance.setI (indexSum s.i (s.reg x))).setFlag (indexFlag s.i (s.reg x)))

/-- LD F, Vx: no memory access (R142). -/
def execLdFVx (x : Reg) (s : State) : Host.Outcome State Fault Refusal :=
  .next (s.advance.setI (glyphAddress (s.reg x)))

/-- LD B, Vx: the decimal digits at I, I+1, I+2 (R143). -/
def execLdBVx (x : Reg) (s : State) : Host.Outcome State Fault Refusal :=
  withAccess s.base 3 s (s.advance.setMem (s.mem.writeBytes s.base (bcdDigits (s.reg x))))

/-- LD [I], Vx: store V0..Vx (R144). -/
def execLdMemVx (x : Reg) (s : State) : Host.Outcome State Fault Refusal :=
  withAccess s.base (rangeCount x) s (s.advance.setMem (s.mem.writeBytes s.base (s.regsUpTo x)))

/-- LD Vx, [I]: load V0..Vx (R145). -/
def execLdVxMem (x : Reg) (s : State) : Host.Outcome State Fault Refusal :=
  withAccess s.base (rangeCount x) s (s.advance.loadRegs s.base x)

end Sys2Proof.Machine
end

