-- ==== Sys2Proof/Machine/KeysTimers.lean ====
section
/-! DEFINITION. The key and timer instructions, spec/44_keys_timers.md. The key index is the value of Vx (R73). -/

namespace Sys2Proof.Machine

/-- SKP Vx: skip if the key is pressed (R150). -/
def execSkpVx (x : Reg) (s : State) : Host.Outcome State Fault Refusal :=
  withKeyCheck (s.reg x) s (s.advance.skipIf (s.keyDown (s.reg x)))

/-- SKNP Vx: skip if the key is not pressed (R151). -/
def execSknpVx (x : Reg) (s : State) : Host.Outcome State Fault Refusal :=
  withKeyCheck (s.reg x) s (s.advance.skipIf (!s.keyDown (s.reg x)))

/-- LD Vx, K: go on if key Vx is pressed, else back to the fetch address, to execute again; no register is written (R152;
log 33). -/
def execLdVxK (x : Reg) (s : State) : Host.Outcome State Fault Refusal :=
  withKeyCheck (s.reg x) s (if s.keyDown (s.reg x) then s.advance else s.advance.setPc (s.advance.pc - 2))

/-- LD Vx, DT (R153). -/
def execLdVxDt (x : Reg) (s : State) : Host.Outcome State Fault Refusal := .next (s.advance.setReg x s.dt)

/-- LD DT, Vx (R154). -/
def execLdDtVx (x : Reg) (s : State) : Host.Outcome State Fault Refusal := .next (s.advance.setDt (s.reg x))

/-- LD ST, Vx (R155). -/
def execLdStVx (x : Reg) (s : State) : Host.Outcome State Fault Refusal := .next (s.advance.setSt (s.reg x))

end Sys2Proof.Machine
end

