-- ==== Sys2Proof/Machine/Cycle.lean ====
section
/-! DEFINITION. The STEP operation of spec/30_encoding.md R81 with the status it returns: the halted check, the fetch, the
decoder, the unknown word's no-op, the instruction's effect. `Step.lean` keeps the state of it. -/

namespace Sys2Proof.Machine

/-- What STEP returns to the host (R36, R81; log 8). -/
inductive StepStatus where
  /-- One instruction's rule was performed. -/
  | executed
  /-- An unknown word ran as a no-op (R79, R166). -/
  | unknown (w : Word)
  /-- The step was cancelled and FAULT recorded (R161). -/
  | faulted (c : FaultCode)
  /-- The machine was halted already (R168). -/
  | halted (c : FaultCode)
deriving DecidableEq, Repr

/-- The word at PC, the byte at the lower address the high one (R55, R81). -/
def State.fetchWord (s : State) : Word := wordOfBytes (s.byteAt s.pc.toNat) (s.byteAt (s.pc.toNat + 1))

/-- The first out-of-range address of the fetch of PC and PC + 1, if there is one (R81, R164). -/
def State.fetchCheck (s : State) : Option Nat := accessCheck s.pc.toNat 2

/-- An unknown word is a no-op: its only state change is the step's advance (R79). -/
def execUnknown (s : State) : Host.Outcome State Fault Refusal := .next s.advance

/-- The status of a step that performed an instruction's rule from a machine that was not halted. -/
def statusAfter (t : State) : StepStatus :=
  if t.fault.code = FaultCode.none then .executed else .faulted t.fault.code

/-- Pair the next state of an outcome with a status read off it. -/
def withStatus (status : State → StepStatus) :
    Host.Outcome State Fault Refusal → Host.Outcome (State × StepStatus) Fault Refusal
  | .next t => .next (t, status t)
  | .fault f => .fault f
  | .refused r => .refused r

/-- The effect of a decoded word. -/
def runDecoded (s : State) : Decoded → Host.Outcome (State × StepStatus) Fault Refusal
  | .known i => withStatus statusAfter (exec i s)
  | .unknown _ => withStatus (fun _ => .unknown s.fetchWord) (execUnknown s)

/-- STEP (R81). A halted machine does not change and consumes no RAND (R168; log 7). The fetch check comes before decode
(R169). -/
def cycle (s : State) : Host.Outcome (State × StepStatus) Fault Refusal :=
  if s.halted then .next (s, .halted s.fault.code)
  else
    match s.fetchCheck with
    | some a => withStatus statusAfter (raise .memoryOutOfRange (BitVec.ofNat 16 a) s)
    | none => runDecoded s (decode s.fetchWord)

/-- The state of a step, without its status. -/
def forgetStatus : Host.Outcome (State × StepStatus) Fault Refusal → Host.Outcome State Fault Refusal
  | .next p => .next p.1
  | .fault f => .fault f
  | .refused r => .refused r

/-- Store one instruction word at an address, high byte first (R55). -/
def State.storeWord (s : State) (a : Nat) (w : Word) : State :=
  s.setMem (s.mem.writeBytes a [highByte w, lowByte w])

end Sys2Proof.Machine
end

