-- ==== Sys2Proof/Machine/Step.lean ====
section
/-! DEFINITION. One STEP of the machine, and the placing of a word where the next step fetches it. -/

namespace Sys2Proof.Machine

/-- One STEP (spec/30_encoding.md R81): the state of `cycle`. -/
def step (s : State) : Host.Outcome State Fault Refusal := forgetStatus (cycle s)

/-- The state with the word `w` (numbered as spec/opcode_table.json numbers it, the bits from `nbits` on zero) stored at PC
and PC + 1, where the next step fetches it. It stands for a LOAD whose ROM holds the word there (log 11). -/
def State.withFetchWord (s : State) (nbits w : Nat) : State :=
  s.storeWord s.pc.toNat (BitVec.ofNat 16 (w % 2 ^ nbits))

end Sys2Proof.Machine
end

