-- ==== Sys2Proof/Machine/HostOps.lean ====
section
/-! DEFINITION. The other operations the host invokes, and the outputs it reads (spec/10_state.md R36, R37; spec/60 R171,
R175 to R178; spec/70 R190 to R192). Each is atomic, and any order of them is a legal run (R200; log 10, 31). -/

namespace Sys2Proof.Machine

/-! ### LOAD -/

/-- What LOAD answers (R190, R167). -/
inductive LoadResult where
  /-- The machine it builds. -/
  | machine (s : State)
  /-- The ROM exceeds 3584 bytes, and no machine is built (R191; log 26). -/
  | romTooLarge
deriving DecidableEq, Repr

/-- The default FONT with its length (R10, D15; log 2). -/
def defaultFont : Vector Byte 80 := ⟨Config.font.toArray, by decide⟩

/-- MEM after LOAD: MEM_INIT, then the font, then the ROM (R190). -/
def loadedMemory (font : Vector Byte 80) (rom : List Byte) : Memory :=
  Memory.writeBytes Config.romBase rom (Memory.writeBytes Config.fontBase font.toList [])

/-- LOAD(rom) for any value of the parameter FONT (R10, R190). -/
def loadWith (font : Vector Byte 80) (rom : List Byte) : LoadResult :=
  if Config.romMax < rom.length then .romTooLarge
  else .machine (State.reset.setMem (loadedMemory font rom))

/-- LOAD(rom) (R190). -/
def load (rom : List Byte) : LoadResult := loadWith defaultFont rom

/-! ### Operations on a running machine -/

/-- A saturating decrement by 1 (R171). -/
def tick (b : Byte) : Byte := BitVec.ofNat 8 (b.toNat - 1)

/-- TICK_DT (R171; log 28). It works on a halted machine too (R168, D20; log 27). -/
def State.tickDt (s : State) : State := s.setDt (tick s.dt)

/-- TICK_ST (R171; log 28). -/
def State.tickSt (s : State) : State := s.setSt (tick s.st)

/-- SET_KEYS(k): KEY <- k (R175). -/
def State.setKeys (s : State) (k : BitVec 16) : State := { s with key := k }

/-- The host presents the RAND byte of the coming STEP (R81, R178; log 3). -/
def State.presentRand (s : State) (r : Byte) : State := { s with randIn := [r] }

/-- The operations on a running machine (R36). -/
inductive HostOp where
  /-- STEP(RAND). -/
  | step (rand : Byte)
  | tickDt
  | tickSt
  | setKeys (k : BitVec 16)
deriving DecidableEq, Repr

/-- One operation of the host (R36). -/
def State.apply (s : State) : HostOp → Host.Outcome State Fault Refusal
  | .step r => Sys2Proof.Machine.step (s.presentRand r)
  | .tickDt => .next s.tickDt
  | .tickSt => .next s.tickSt
  | .setKeys k => .next (s.setKeys k)

/-- A run: the host's operations one after another (R62, R200). -/
def State.run : List HostOp → State → Host.Outcome State Fault Refusal
  | [], s => .next s
  | op :: ops, s =>
    match s.apply op with
    | .next t => State.run ops t
    | .fault f => .fault f
    | .refused r => .refused r

/-! ### Outputs -/

/-- SOUND (R27, R37, D22; log 29). -/
def State.sound (s : State) : Bool := decide (s.st ≠ 0)

/-- SP, the stack depth (R28, R177). -/
def State.sp (s : State) : Nat := s.stack.length

/-- STACK[k], for k below SP (R28; log 35). -/
def State.stackEntry (s : State) (k : Nat) : Option Word := s.stack.reverse[k]?

/-- The top stack entry, none when SP = 0 (R37, D23; log 29). -/
def State.stackTop (s : State) : Option Word := s.stack.head?

/-- The framebuffer read port: FB[col][row] (R176). -/
def State.pixelAt (s : State) (col row : Nat) : Bool := s.fb.pixel col row

/-- FAULT as the host reads it: code, pc, info (R32, R37). -/
def State.faultPort (s : State) : BitVec 3 × Word × Word := (s.fault.code.toBits, s.fault.pc, s.fault.info)

end Sys2Proof.Machine
end

