-- ==== Sys2Proof/Safety.lean ====
section
/-! DEFINITION. The terms claims about the machine are stated in: the invariant of reachable states (spec/10_state.md R39),
the states a host can reach, what a step leaves unchanged, and the tables of R22 to R31 and R51 that say which
instruction may touch which piece of state. -/

namespace Sys2Proof.Machine

/-! ### The invariant -/

/-- FAULT holds a value the core can write: clear, or a fault code with the info R32 and R160 give it. -/
def FaultReg.legal (f : FaultReg) : Prop :=
  match f.code with
  | .none => f = FaultReg.clear
  | .stackOverflow | .stackUnderflow => f.info = 0
  | .memoryOutOfRange => 0x1000 ≤ f.info.toNat
  | .keyIndexOutOfRange => 0x10 ≤ f.info.toNat ∧ f.info.toNat ≤ 0xFF

/-- What R39 says of every reachable state, with the canonical form of memory and the meaning of FAULT (R32, R161). -/
structure State.Inv (s : State) : Prop where
  /-- Memory is in its canonical form (log 5). -/
  memWf : s.mem.wf
  /-- SP <= 16 (R28, R39). -/
  depth : s.stack.length ≤ 16
  /-- Every stack entry is at most 0x1000 (R39). -/
  entries : ∀ e ∈ s.stack, e.toNat ≤ 0x1000
  /-- PC <= 0x10FE (R39). -/
  pcBound : s.pc.toNat ≤ 0x10FE
  /-- FAULT holds a value the core can write (R32). -/
  faultLegal : s.fault.legal
  /-- A halted machine stands at the instruction that faulted (R161). -/
  faultAtPc : s.halted → s.fault.pc = s.pc

/-- The states a host can bring about: a LOAD, then any operations in any order (R200). -/
inductive Reachable : State → Prop where
  | load (font : Vector Byte 80) (rom : List Byte) (s : State) (h : loadWith font rom = .machine s) : Reachable s
  | apply (s t : State) (op : HostOp) (hs : Reachable s) (h : s.apply op = .next t) : Reachable t

/-! ### Frames -/

/-- The pieces of state a step may change; PC may always change, and KEY never does (R31). -/
structure Footprint where
  regs : Reg → Prop := fun _ => False
  i : Prop := False
  dt : Prop := False
  st : Prop := False
  stack : Prop := False
  fb : Prop := False
  fault : Prop := False
  rand : Prop := False
  mem : Nat → Prop := fun _ => False

/-- From `s` to `t` nothing outside the footprint changed: every other register, every byte of memory at an address
outside it, and each other piece of state. -/
structure Frame (may : Footprint) (s t : State) : Prop where
  regs : ∀ r, ¬ may.regs r → t.reg r = s.reg r
  i : ¬ may.i → t.i = s.i
  dt : ¬ may.dt → t.dt = s.dt
  st : ¬ may.st → t.st = s.st
  stack : ¬ may.stack → t.stack = s.stack
  fb : ¬ may.fb → t.fb = s.fb
  key : t.key = s.key
  fault : ¬ may.fault → t.fault = s.fault
  rand : ¬ may.rand → t.randIn = s.randIn ∧ t.draws = s.draws
  mem : ∀ a, ¬ may.mem a → t.byteAt a = s.byteAt a

/-! ### The tables of the spec -/

/-- The registers an instruction writes (the third column of R23's table, the flag writers of R22). -/
def writesReg : Instr → Reg → Prop
  | .ldVxKk x _, r | .addVxKk x _, r | .ldVxVy x _, r | .orVxVy x _, r | .andVxVy x _, r | .xorVxVy x _, r
  | .rndVxKk x _, r | .ldVxDt x, r => r = x
  | .addVxVy x _, r | .subVxVy x _, r | .subnVxVy x _, r | .shrVx x, r | .shlVx x, r => r = x ∨ r = vF
  | .drwVxVyN _ _ _, r | .addIVx _, r => r = vF
  | .ldVxMem x, r => r ≤ x
  | .cls, _ | .ret, _ | .jpNnn _, _ | .callNnn _, _ | .jpV0Nnn _, _ | .ldINnn _, _ => False
  | .seVxKk _ _, _ | .sneVxKk _ _, _ | .seVxVy _ _, _ | .sneVxVy _ _, _ => False
  | .skpVx _, _ | .sknpVx _, _ | .ldVxK _, _ | .ldDtVx _, _ | .ldStVx _, _ => False
  | .ldFVx _, _ | .ldBVx _, _ | .ldMemVx _, _ => False

/-- The registers an instruction reads (the second column of R23's table). -/
def readsReg : Instr → Reg → Prop
  | .seVxKk x _, r | .sneVxKk x _, r | .addVxKk x _, r | .shrVx x, r | .shlVx x, r => r = x
  | .skpVx x, r | .sknpVx x, r | .ldVxK x, r | .ldDtVx x, r | .ldStVx x, r => r = x
  | .addIVx x, r | .ldFVx x, r | .ldBVx x, r => r = x
  | .seVxVy x y, r | .sneVxVy x y, r | .orVxVy x y, r | .andVxVy x y, r | .xorVxVy x y, r => r = x ∨ r = y
  | .addVxVy x y, r | .subVxVy x y, r | .subnVxVy x y, r | .drwVxVyN x y _, r => r = x ∨ r = y
  | .ldVxVy _ y, r => r = y
  | .jpV0Nnn _, r => r = v0
  | .ldMemVx x, r => r ≤ x
  | .cls, _ | .ret, _ | .jpNnn _, _ | .callNnn _, _ | .ldINnn _, _ | .ldVxKk _ _, _ | .rndVxKk _ _, _ => False
  | .ldVxDt _, _ | .ldVxMem _, _ => False

/-- The framebuffer controller's instructions (R92). -/
def touchesFb : Instr → Bool
  | .cls | .drwVxVyN _ _ _ => true
  | .ret | .jpNnn _ | .callNnn _ | .seVxKk _ _ | .sneVxKk _ _ | .seVxVy _ _ | .ldVxKk _ _ | .addVxKk _ _ => false
  | .ldVxVy _ _ | .orVxVy _ _ | .andVxVy _ _ | .xorVxVy _ _ | .addVxVy _ _ | .subVxVy _ _ | .shrVx _ => false
  | .subnVxVy _ _ | .shlVx _ | .sneVxVy _ _ | .ldINnn _ | .jpV0Nnn _ | .rndVxKk _ _ | .skpVx _ | .sknpVx _ => false
  | .ldVxDt _ | .ldVxK _ | .ldDtVx _ | .ldStVx _ | .addIVx _ | .ldFVx _ | .ldBVx _ | .ldMemVx _ | .ldVxMem _ => false

/-- The instructions that push or pop (R28, R29). -/
def touchesStack : Instr → Bool
  | .ret | .callNnn _ => true
  | .cls | .drwVxVyN _ _ _ | .jpNnn _ | .seVxKk _ _ | .sneVxKk _ _ | .seVxVy _ _ | .ldVxKk _ _ | .addVxKk _ _ => false
  | .ldVxVy _ _ | .orVxVy _ _ | .andVxVy _ _ | .xorVxVy _ _ | .addVxVy _ _ | .subVxVy _ _ | .shrVx _ => false
  | .subnVxVy _ _ | .shlVx _ | .sneVxVy _ _ | .ldINnn _ | .jpV0Nnn _ | .rndVxKk _ _ | .skpVx _ | .sknpVx _ => false
  | .ldVxDt _ | .ldVxK _ | .ldDtVx _ | .ldStVx _ | .addIVx _ | .ldFVx _ | .ldBVx _ | .ldMemVx _ | .ldVxMem _ => false

/-- The instructions that read the key latch (R31). -/
def readsKey : Instr → Bool
  | .skpVx _ | .sknpVx _ | .ldVxK _ => true
  | .cls | .ret | .drwVxVyN _ _ _ | .jpNnn _ | .callNnn _ | .seVxKk _ _ | .sneVxKk _ _ | .seVxVy _ _ => false
  | .ldVxKk _ _ | .addVxKk _ _ | .ldVxVy _ _ | .orVxVy _ _ | .andVxVy _ _ | .xorVxVy _ _ | .addVxVy _ _ => false
  | .subVxVy _ _ | .shrVx _ | .subnVxVy _ _ | .shlVx _ | .sneVxVy _ _ | .ldINnn _ | .jpV0Nnn _ | .rndVxKk _ _ => false
  | .ldVxDt _ | .ldDtVx _ | .ldStVx _ | .addIVx _ | .ldFVx _ | .ldBVx _ | .ldMemVx _ | .ldVxMem _ => false

/-- The instructions that read or write memory in their effect (R51). -/
def touchesMem : Instr → Bool
  | .drwVxVyN _ _ _ | .ldBVx _ | .ldMemVx _ | .ldVxMem _ => true
  | .cls | .ret | .jpNnn _ | .callNnn _ | .seVxKk _ _ | .sneVxKk _ _ | .seVxVy _ _ | .ldVxKk _ _ | .addVxKk _ _ => false
  | .ldVxVy _ _ | .orVxVy _ _ | .andVxVy _ _ | .xorVxVy _ _ | .addVxVy _ _ | .subVxVy _ _ | .shrVx _ => false
  | .subnVxVy _ _ | .shlVx _ | .sneVxVy _ _ | .ldINnn _ | .jpV0Nnn _ | .rndVxKk _ _ | .skpVx _ | .sknpVx _ => false
  | .ldVxDt _ | .ldVxK _ | .ldDtVx _ | .ldStVx _ | .addIVx _ | .ldFVx _ => false

/-- The instructions that write I (R24). -/
def writesI : Instr → Bool
  | .ldINnn _ | .addIVx _ | .ldFVx _ => true
  | .cls | .ret | .drwVxVyN _ _ _ | .jpNnn _ | .callNnn _ | .seVxKk _ _ | .sneVxKk _ _ | .seVxVy _ _ => false
  | .ldVxKk _ _ | .addVxKk _ _ | .ldVxVy _ _ | .orVxVy _ _ | .andVxVy _ _ | .xorVxVy _ _ | .addVxVy _ _ => false
  | .subVxVy _ _ | .shrVx _ | .subnVxVy _ _ | .shlVx _ | .sneVxVy _ _ | .jpV0Nnn _ | .rndVxKk _ _ | .skpVx _ => false
  | .sknpVx _ | .ldVxDt _ | .ldVxK _ | .ldDtVx _ | .ldStVx _ | .ldBVx _ | .ldMemVx _ | .ldVxMem _ => false

/-- The bytes of memory an instruction writes, as addresses from I (R51). -/
def writesMem (i : Instr) (s : State) (a : Nat) : Prop :=
  match i with
  | .ldBVx _ => s.base ≤ a ∧ a < s.base + 3
  | .ldMemVx x => s.base ≤ a ∧ a < s.base + rangeCount x
  | .cls | .ret | .drwVxVyN _ _ _ | .jpNnn _ | .callNnn _ | .seVxKk _ _ | .sneVxKk _ _ | .seVxVy _ _ => False
  | .ldVxKk _ _ | .addVxKk _ _ | .ldVxVy _ _ | .orVxVy _ _ | .andVxVy _ _ | .xorVxVy _ _ | .addVxVy _ _ => False
  | .subVxVy _ _ | .shrVx _ | .subnVxVy _ _ | .shlVx _ | .sneVxVy _ _ | .ldINnn _ | .jpV0Nnn _ | .rndVxKk _ _ => False
  | .skpVx _ | .sknpVx _ | .ldVxDt _ | .ldVxK _ | .ldDtVx _ | .ldStVx _ | .addIVx _ | .ldFVx _ | .ldVxMem _ => False

/-- The bits of a word that matter to the instruction it decodes to: those of its row's mask and of its operand fields; the
others are don't-care bits (R77). -/
def usedBits : Instr → Word
  | .cls | .ret => 0xF0FF
  | .seVxVy _ _ | .sneVxVy _ _ => 0xFFF0
  | .shrVx _ | .shlVx _ => 0xFF0F
  | .jpNnn _ | .callNnn _ | .seVxKk _ _ | .sneVxKk _ _ | .ldVxKk _ _ | .addVxKk _ _ | .ldVxVy _ _ | .orVxVy _ _ => 0xFFFF
  | .andVxVy _ _ | .xorVxVy _ _ | .addVxVy _ _ | .subVxVy _ _ | .subnVxVy _ _ | .ldINnn _ | .jpV0Nnn _ => 0xFFFF
  | .rndVxKk _ _ | .drwVxVyN _ _ _ | .skpVx _ | .sknpVx _ | .ldVxDt _ | .ldVxK _ | .ldDtVx _ | .ldStVx _ => 0xFFFF
  | .addIVx _ | .ldFVx _ | .ldBVx _ | .ldMemVx _ | .ldVxMem _ => 0xFFFF

/-- The sprite pixel at a column and row of the grid, for a sprite of `n` rows at address `base` drawn at column `vx`, row
`vy`: none outside the sprite's 8 columns and n rows, bit 7 leftmost (R91). -/
def spriteOn (s : State) (base vx vy n col row : Nat) : Bool :=
  decide (vx ≤ col ∧ col < vx + 8 ∧ vy ≤ row ∧ row < vy + n) && (s.byteAt (base + (row - vy))).getLsbD (7 - (col - vx))

end Sys2Proof.Machine
end

