-- ==== Sys2Proof/Certificates/Slice0/Obligations.lean ====
section
/-! DEFINITION. What is claimed of the machine, stated from the rules of spec/. A completion statement says that exec answers
a next state, what that state holds, and (as a `Frame`) what it leaves unchanged: every other register, every byte of
memory at an address outside the footprint, I, the timers, the stack, the framebuffer, KEY, FAULT and the RAND input. -/

open Sys2Proof Sys2Proof.Machine

/-! ### LOAD and memory -/

/-- LOAD builds the reset state of R38 and R190 for every ROM of at most 3584 bytes and every value of FONT, and rejects a
larger one (R191). MEM_INIT, FONT, KEY, FAULT and the rejection are the spec's own decisions D14, D15, D18, D19, D17
(log 1, 2, 12, 13, 26). -/
def Obligations.LoadBuildsTheResetMachine : Prop :=
  ∀ (font : Vector Byte 80) (rom : List Byte),
    (3584 < rom.length → loadWith font rom = .romTooLarge) ∧
    (rom.length ≤ 3584 → ∃ s, loadWith font rom = .machine s ∧
      (∀ r, s.reg r = 0) ∧ s.i = 0 ∧ s.pc = 0x200 ∧ s.dt = 0 ∧ s.st = 0 ∧ s.stack = [] ∧
      (∀ c r, s.pixelAt c r = false) ∧ (∀ k, s.key.getLsbD k = false) ∧ s.fault = ⟨.none, 0, 0⟩ ∧
      (∀ k (h : k < rom.length), s.byteAt (0x200 + k) = rom[k]) ∧
      (∀ g (h : g < 80), s.byteAt (0x050 + g) = font[g]) ∧
      (∀ a, a < 4096 → ¬ (0x050 ≤ a ∧ a ≤ 0x09F) → ¬ (0x200 ≤ a ∧ a < 0x200 + rom.length) →
        s.byteAt a = Config.memInit a))

/-- R193: after LOAD the entry point is PC = 0x200, the first ROM byte: the first word fetched is the ROM's first two bytes. -/
def Obligations.LoadEntersAtTheFirstRomByte : Prop :=
  ∀ (font : Vector Byte 80) (b1 b2 : Byte) (rest : List Byte) (s : State),
    loadWith font (b1 :: b2 :: rest) = .machine s →
    s.pc = 0x200 ∧ s.byteAt 0x200 = b1 ∧ s.fetchWord = wordOfBytes b1 b2 ∧ ¬ s.halted

/-- R52: a write changes only the byte addressed and a read returns it; a fetch is the two one-byte reads of PC and PC + 1. -/
def Obligations.ByteAccessesAreOneByte : Prop :=
  (∀ (m : Memory) (a : Nat) (b : Byte), a ≤ 0xFFF → (m.write a b).read a = b) ∧
  (∀ (m : Memory) (a c : Nat) (b : Byte), c ≠ a → (m.write a b).read c = m.read c) ∧
  (∀ s : State, s.fetchWord.toNat = (s.byteAt s.pc.toNat).toNat * 256 + (s.byteAt (s.pc.toNat + 1)).toNat)

/-- The model's canonical form (log 5; the model's choice): two memories in it that record the same at every address, the byte
listed there or the font's, and the same addresses as not known, are the same list. To read the same is less: an address that is
not known reads as MEM_INIT, and a memory that lists that very byte reads no differently. -/
def Obligations.CanonicalMemoriesThatRecordTheSameAreEqual : Prop :=
  ∀ m m' : Memory, m.wf → m'.wf → (∀ a, m.known a = m'.known a) → m = m'

/-- R65 (derived by the spec from R52 and R61): bytes stored by Fx55 are the bytes a later fetch of their addresses reads. -/
def Obligations.StoredRegistersAreFetched : Prop :=
  ∀ (s : State) (x k k1 : Reg), s.base + x.val ≤ 0xFFF → k1.val = k.val + 1 → k1 ≤ x →
    ∃ t, exec (.ldMemVx x) s = .next t ∧
      (t.setPc (BitVec.ofNat 16 (s.base + k.val))).fetchWord.toNat = (s.reg k).toNat * 256 + (s.reg k1).toNat

/-! ### Encoding -/

/-- Every well-formed instruction, at every value of every operand, is what its encoding decodes to. -/
def Obligations.DecodeOfEncodeIsTheInstruction : Prop :=
  ∀ i : Instr, i.wellFormed = true → decode (encode i) = .known i

/-- R71 to R77: the decoder answers an instruction exactly for the words that agree with its encoding on the bits its row and
operands use; the other bits are don't-care bits (D1, D4: the spec's own decisions; log 14, 15). -/
def Obligations.DecoderReadsExactlyTheUsedBits : Prop :=
  ∀ (w : Word) (i : Instr),
    decode w = .known i ↔ i.wellFormed = true ∧ w &&& usedBits i = encode i &&& usedBits i

/-- R75, R78: the unknown words are those that no row's match and mask select (D1, D4; log 14, 15). -/
def Obligations.UnknownWordsAreThoseNoRowSelects : Prop :=
  ∀ w : Word, (∃ c, decode w = .unknown c) ↔ ∀ i : Instr, ¬ i.row.selects w

/-- R78 (derived by the spec from R74 and R76): the unknown words by class. -/
def Obligations.UnknownWordsByClass : Prop :=
  ∀ w : Word,
    (decode w = .unknown .class0 ↔ w.toNat / 4096 = 0x0 ∧ w.toNat % 256 ≠ 0xE0 ∧ w.toNat % 256 ≠ 0xEE) ∧
    (decode w = .unknown .class8 ↔ w.toNat / 4096 = 0x8 ∧ w.toNat % 16 ∈ [0x8, 0x9, 0xA, 0xB, 0xC, 0xD, 0xF]) ∧
    (decode w = .unknown .classE ↔ w.toNat / 4096 = 0xE ∧ w.toNat % 256 ≠ 0x9E ∧ w.toNat % 256 ≠ 0xA1) ∧
    (decode w = .unknown .classF ↔ w.toNat / 4096 = 0xF ∧
      w.toNat % 256 ∉ [0x07, 0x0A, 0x15, 0x18, 0x1E, 0x29, 0x33, 0x55, 0x65])

/-- R75: no two rows match the same word. -/
def Obligations.OpcodeRowsAreDisjoint : Prop :=
  ∀ (i j : Instr) (w : Word), i.row.selects w → j.row.selects w → i.row = j.row

/-- Words written out from R75's patterns, at least one of each family, decode to the instructions they stand for. -/
def Obligations.SampleWordsDecode : Prop :=
  decode 0x00E0 = .known .cls ∧ decode 0x00EE = .known .ret ∧ decode 0x1234 = .known (.jpNnn 0x234) ∧
  decode 0x2204 = .known (.callNnn 0x204) ∧ decode 0x3342 = .known (.seVxKk 3 0x42) ∧
  decode 0x6A5C = .known (.ldVxKk 0xA 0x5C) ∧ decode 0x8014 = .known (.addVxVy 0 1) ∧
  decode 0x820E = .known (.shlVx 2) ∧ decode 0xA300 = .known (.ldINnn 0x300) ∧
  decode 0xD123 = .known (.drwVxVyN 1 2 3) ∧ decode 0xE19E = .known (.skpVx 1) ∧
  decode 0xF033 = .known (.ldBVx 0) ∧ decode 0xF315 = .known (.ldDtVx 3) ∧ decode 0x8008 = .unknown .class8

/-! ### The step -/

/-- R81: on a machine that is not halted, with both fetched bytes in memory, a step is exec of the decoded instruction at that
state; exec makes the advance of PC itself (the model's convention, log 9). -/
def Obligations.StepRunsTheDecodedInstruction : Prop :=
  ∀ (s : State) (i : Instr), ¬ s.halted → s.pc.toNat ≤ 0xFFE →
    decode (wordOfBytes (s.byteAt s.pc.toNat) (s.byteAt (s.pc.toNat + 1))) = .known i → step s = exec i s

/-- R79, R166: an unknown word changes nothing but PC, by 2, is reported as Unknown, and does not halt. -/
def Obligations.UnknownWordIsANoOp : Prop :=
  ∀ (s : State) (c : UnknownClass), ¬ s.halted → s.pc.toNat ≤ 0xFFE → decode s.fetchWord = .unknown c →
    cycle s = .next ({ s with pc := s.pc + 2 }, .unknown s.fetchWord) ∧
    step s = .next { s with pc := s.pc + 2 } ∧ ¬ ({ s with pc := s.pc + 2 } : State).halted

/-- R168: a step of a halted machine changes no state and returns Halted; ticks and SET_KEYS still work (D20, the spec's own
decision; log 27). -/
def Obligations.HaltedMachineDoesNotStep : Prop :=
  ∀ s : State, s.halted →
    cycle s = .next (s, .halted s.fault.code) ∧ step s = .next s ∧
    s.apply .tickDt = .next { s with dt := s.dt - if s.dt = 0 then 0 else 1 } ∧
    s.apply .tickSt = .next { s with st := s.st - if s.st = 0 then 0 else 1 } ∧
    ∀ k, s.apply (.setKeys k) = .next { s with key := k }

/-- R168: once halted, halted for good: whatever the host does, registers, memory, stack, framebuffer and FAULT stay (D20, the
spec's own decision; log 27). -/
def Obligations.HaltIsForever : Prop :=
  ∀ (ops : List HostOp) (s t : State), s.halted → State.run ops s = .next t →
    t.halted ∧ t.fault = s.fault ∧ t.mem = s.mem ∧ t.v = s.v ∧ t.i = s.i ∧ t.pc = s.pc ∧ t.stack = s.stack ∧ t.fb = s.fb

/-- R164, R169: a fetch above 0xFFE faults before decode, with the lowest out-of-range address (D6, D7: the spec's own
decisions; log 19, 20). -/
def Obligations.FetchBeyondMemoryFaults : Prop :=
  ∀ s : State, ¬ s.halted → 0xFFE < s.pc.toNat →
    cycle s = .next ({ s with fault := ⟨.memoryOutOfRange, s.pc, if s.pc = 0xFFF then 0x1000 else s.pc⟩ },
      .faulted .memoryOutOfRange)

/-- Every STEP completes: from every state there is a next state (R81, R160: a fault is entered, an unknown word runs). -/
def Obligations.EveryStepAnswersANextState : Prop := ∀ s : State, ∃ t, step s = .next t

/-- R81, R161, R168: what each status says of the state after the step. A fault is precise: nothing but FAULT changes, and
FAULT.pc is the fetch address (D6, the spec's own decision; log 19). -/
def Obligations.StatusTellsWhatTheStepDid : Prop :=
  ∀ (s t : State) (st : StepStatus), cycle s = .next (t, st) →
    match st with
    | .executed => ¬ s.halted ∧ ¬ t.halted ∧ t.fault = s.fault ∧ s.pc.toNat ≤ 0xFFE
    | .unknown w => ¬ s.halted ∧ w = s.fetchWord ∧ t = { s with pc := s.pc + 2 }
    | .faulted c => ¬ s.halted ∧ c ≠ .none ∧ ∃ info, t = { s with fault := ⟨c, s.pc, info⟩ }
    | .halted c => s.halted ∧ c = s.fault.code ∧ t = s

/-! ### Display -/

/-- R90: CLS turns every pixel off and touches nothing else, VF included. That x is ignored is D1, the spec's own decision
(log 14). -/
def Obligations.ClsClearsTheFramebuffer : Prop :=
  (∀ x : Reg, decode (BitVec.ofNat 16 (x.val * 256 + 0xE0)) = .known .cls) ∧
  ∀ s : State, ∃ t, exec .cls s = .next t ∧ (∀ c r, t.pixelAt c r = false) ∧ t.pc = s.pc + 2 ∧
    Frame { fb := True } s t

/-- R91: DRW toggles exactly the lit pixels of the sprite that fall inside the grid, and VF is 1 if one of them was on, else
0. Bit order, clipping without wrap, the flag without collision and the range check are D9 to D12, the spec's own decisions
(log 22, 23). -/
def Obligations.DrwXorsTheClippedSprite : Prop :=
  ∀ (s : State) (x y : Reg) (n : Nat), n = 0 ∨ s.base + n ≤ 0x1000 →
    ∃ t, exec (.drwVxVyN x y n) s = .next t ∧
      (∀ c r, c < 64 → r < 32 → t.pixelAt c r =
        xor (s.pixelAt c r) (spriteOn s s.base (s.reg x).toNat (s.reg y).toNat n c r)) ∧
      ((∃ c r, c < 64 ∧ r < 32 ∧ spriteOn s s.base (s.reg x).toNat (s.reg y).toNat n c r = true ∧
        s.pixelAt c r = true) → t.reg vF = 1) ∧
      ((¬ ∃ c r, c < 64 ∧ r < 32 ∧ spriteOn s s.base (s.reg x).toNat (s.reg y).toNat n c r = true ∧
        s.pixelAt c r = true) → t.reg vF = 0) ∧
      t.pc = s.pc + 2 ∧ Frame { regs := fun r => r = vF, fb := True } s t

/-- From R91 (and the source's example W8): drawing the same sprite twice from the same registers restores the framebuffer, and
the second draw collides exactly when some lit pixel in the grid was off before the first. With x or y = F the first draw writes
the register the second reads, so those forms are left to `DrwXorsTheClippedSprite`. Bit order, clipping and the flag are D9 to
D12, the spec's own decisions (log 22, 23). -/
def Obligations.DrawingTwiceRestoresTheFramebuffer : Prop :=
  ∀ (s t u : State) (x y : Reg) (n : Nat), x ≠ vF → y ≠ vF → (n = 0 ∨ s.base + n ≤ 0x1000) →
    exec (.drwVxVyN x y n) s = .next t → exec (.drwVxVyN x y n) t = .next u →
    u.fb = s.fb ∧
    (u.reg vF = 1 ↔ ∃ c r, c < 64 ∧ r < 32 ∧
      spriteOn s s.base (s.reg x).toNat (s.reg y).toNat n c r = true ∧ s.pixelAt c r = false)

/-! ### Control flow -/

/-- R101, R163: RET pops PC, and on an empty stack raises StackUnderflow with info 0 and no other effect (D1 for the ignored
x, D6 for the state after a fault; log 14, 19). -/
def Obligations.RetPopsOrUnderflows : Prop :=
  (∀ x : Reg, decode (BitVec.ofNat 16 (x.val * 256 + 0xEE)) = .known .ret) ∧
  (∀ (s : State) (w : Word) (rest : List Word), s.stack = w :: rest →
    ∃ t, exec .ret s = .next t ∧ t.pc = w ∧ t.stack = rest ∧ Frame { stack := True } s t) ∧
  (∀ s : State, s.stack = [] → exec .ret s = .next { s with fault := ⟨.stackUnderflow, s.pc, 0⟩ })

/-- R103, R162: CALL pushes the address after itself and jumps; the push that would make a 17th entry raises StackOverflow with
info 0 and no other effect (D5, D6: the spec's own decisions; log 18, 19). -/
def Obligations.CallPushesOrOverflows : Prop :=
  (∀ a : Word, a.toNat ≤ 0xFFF → decode (BitVec.ofNat 16 (0x2000 + a.toNat)) = .known (.callNnn a)) ∧
  (∀ (s : State) (a : Word), s.stack.length < 16 →
    ∃ t, exec (.callNnn a) s = .next t ∧ t.pc = a ∧ t.stack = (s.pc + 2) :: s.stack ∧
      t.stackEntry s.sp = some (s.pc + 2) ∧ t.sp = s.sp + 1 ∧ Frame { stack := True } s t) ∧
  (∀ (s : State) (a : Word), 16 ≤ s.stack.length →
    exec (.callNnn a) s = .next { s with fault := ⟨.stackOverflow, s.pc, 0⟩ })

/-- From R101 and R103 (the source's example W7): a CALL and then the RET it reaches come back after the CALL with the stack
as before and every other register of the machine too. -/
def Obligations.RetUndoesCall : Prop :=
  ∀ (s : State) (a : Word), s.stack.length < 16 →
    ∃ t, exec (.callNnn a) s = .next t ∧ exec .ret t = .next { s with pc := s.pc + 2 }

/-- R102: JP sets PC to nnn and nothing else; a jump to its own address runs for ever without change; a target of 0xFFF faults
at the next fetch. What that fault leaves, PC as it was and only FAULT written, is D6 and D7, the spec's own decisions (log 19,
20). -/
def Obligations.JpSetsPc : Prop :=
  (∀ a : Word, a.toNat ≤ 0xFFF → decode (BitVec.ofNat 16 (0x1000 + a.toNat)) = .known (.jpNnn a)) ∧
  (∀ (s : State) (a : Word), exec (.jpNnn a) s = .next { s with pc := a }) ∧
  (∀ s : State, ¬ s.halted → s.pc.toNat ≤ 0xFFE → s.fetchWord = BitVec.ofNat 16 (0x1000 + s.pc.toNat) →
    cycle s = .next (s, .executed)) ∧
  (∀ s t : State, ¬ s.halted → exec (.jpNnn 0xFFF) s = .next t →
    cycle t = .next ({ t with fault := ⟨.memoryOutOfRange, 0xFFF, 0x1000⟩ }, .faulted .memoryOutOfRange))

/-- R104, R105: SE and SNE with a byte skip one word when Vx equals, or differs from, kk, whatever memory holds there, and change
nothing but PC; one that leaves PC above 0xFFE faults at the next fetch. What that fault leaves is D6 and D7, the spec's own
decisions (log 19, 20). -/
def Obligations.SkipOnByteCompare : Prop :=
  (∀ (x : Reg) (kk : Byte),
    decode (BitVec.ofNat 16 (0x3000 + x.val * 256 + kk.toNat)) = .known (.seVxKk x kk) ∧
    decode (BitVec.ofNat 16 (0x4000 + x.val * 256 + kk.toNat)) = .known (.sneVxKk x kk)) ∧
  (∀ (s : State) (x : Reg) (kk : Byte),
    exec (.seVxKk x kk) s = .next { s with pc := if s.reg x = kk then s.pc + 4 else s.pc + 2 } ∧
    exec (.sneVxKk x kk) s = .next { s with pc := if s.reg x = kk then s.pc + 2 else s.pc + 4 }) ∧
  (∀ (s t : State) (x : Reg) (kk : Byte), ∀ i ∈ [Instr.seVxKk x kk, .sneVxKk x kk], ¬ s.halted → exec i s = .next t →
    0xFFE < t.pc.toNat → ∃ info, cycle t =
      .next ({ t with fault := ⟨.memoryOutOfRange, t.pc, info⟩ }, .faulted .memoryOutOfRange))

/-- R106, R107: SE and SNE with two registers, the same; x = y always, or never, skips. That n is ignored is D1, the spec's own
decision (log 14). -/
def Obligations.SkipOnRegisterCompare : Prop :=
  (∀ (x y n : Reg),
    decode (BitVec.ofNat 16 (0x5000 + x.val * 256 + y.val * 16 + n.val)) = .known (.seVxVy x y) ∧
    decode (BitVec.ofNat 16 (0x9000 + x.val * 256 + y.val * 16 + n.val)) = .known (.sneVxVy x y)) ∧
  (∀ (s : State) (x y : Reg),
    exec (.seVxVy x y) s = .next { s with pc := if s.reg x = s.reg y then s.pc + 4 else s.pc + 2 } ∧
    exec (.sneVxVy x y) s = .next { s with pc := if s.reg x = s.reg y then s.pc + 2 else s.pc + 4 })

/-- R108: JP V0 sets PC to nnn + V0, not reduced to 12 bits and never with another register, and changes nothing else; a
target above 0xFFE faults at the next fetch. What that fault leaves is D6 and D7, the spec's own decisions (log 19, 20). -/
def Obligations.JpV0AddsV0 : Prop :=
  (∀ a : Word, a.toNat ≤ 0xFFF → decode (BitVec.ofNat 16 (0xB000 + a.toNat)) = .known (.jpV0Nnn a)) ∧
  (∀ (s : State) (a : Word), a.toNat ≤ 0xFFF →
    ∃ t, exec (.jpV0Nnn a) s = .next t ∧ t.pc.toNat = a.toNat + (s.reg 0).toNat ∧ t.pc.toNat ≤ 0x10FE ∧ Frame {} s t) ∧
  (∀ (s t : State) (a : Word), ¬ s.halted → a.toNat ≤ 0xFFF → 0xFFE < a.toNat + (s.reg 0).toNat →
    exec (.jpV0Nnn a) s = .next t → ∃ info, cycle t =
      .next ({ t with fault := ⟨.memoryOutOfRange, t.pc, info⟩ }, .faulted .memoryOutOfRange))

/-! ### Registers and ALU -/

/-- R121, R122: LD Vx, kk loads the byte; ADD Vx, kk adds it modulo 256 and sets no flag. -/
def Obligations.ByteLoadAndAdd : Prop :=
  (∀ (x : Reg) (kk : Byte),
    decode (BitVec.ofNat 16 (0x6000 + x.val * 256 + kk.toNat)) = .known (.ldVxKk x kk) ∧
    decode (BitVec.ofNat 16 (0x7000 + x.val * 256 + kk.toNat)) = .known (.addVxKk x kk)) ∧
  (∀ (s : State) (x : Reg) (kk : Byte),
    (∃ t, exec (.ldVxKk x kk) s = .next t ∧ t.reg x = kk ∧ t.pc = s.pc + 2 ∧ Frame { regs := fun r => r = x } s t) ∧
    (∃ t, exec (.addVxKk x kk) s = .next t ∧ (t.reg x).toNat = ((s.reg x).toNat + kk.toNat) % 256 ∧ t.pc = s.pc + 2 ∧
      Frame { regs := fun r => r = x } s t))

/-- R123 to R126: copy, or, and, xor write Vx bit by bit and leave VF alone unless x is F (D3, D4: the spec's own decisions;
log 15, 17). -/
def Obligations.CopyAndLogicLeaveVF : Prop :=
  ∀ (s : State) (x y : Reg),
    (∃ t, exec (.ldVxVy x y) s = .next t ∧ t.reg x = s.reg y ∧ t.pc = s.pc + 2 ∧ Frame { regs := fun r => r = x } s t) ∧
    (∃ t, exec (.orVxVy x y) s = .next t ∧
      (∀ k, (t.reg x).getLsbD k = ((s.reg x).getLsbD k || (s.reg y).getLsbD k)) ∧
      t.pc = s.pc + 2 ∧ Frame { regs := fun r => r = x } s t) ∧
    (∃ t, exec (.andVxVy x y) s = .next t ∧
      (∀ k, (t.reg x).getLsbD k = ((s.reg x).getLsbD k && (s.reg y).getLsbD k)) ∧
      t.pc = s.pc + 2 ∧ Frame { regs := fun r => r = x } s t) ∧
    (∃ t, exec (.xorVxVy x y) s = .next t ∧
      (∀ k, (t.reg x).getLsbD k = xor ((s.reg x).getLsbD k) ((s.reg y).getLsbD k)) ∧
      t.pc = s.pc + 2 ∧ Frame { regs := fun r => r = x } s t)

/-- R127, R120: ADD Vx, Vy is the sum modulo 256, VF the carry of the sum before truncation, also when x or y is F: the flag is
written last (D2, the spec's own decision; log 16). -/
def Obligations.AddSetsCarry : Prop :=
  ∀ (s : State) (x y : Reg), ∃ t, exec (.addVxVy x y) s = .next t ∧
    (x ≠ vF → (t.reg x).toNat = ((s.reg x).toNat + (s.reg y).toNat) % 256) ∧
    (t.reg vF = if 255 < (s.reg x).toNat + (s.reg y).toNat then 1 else 0) ∧
    t.pc = s.pc + 2 ∧ Frame { regs := fun r => r = x ∨ r = vF } s t

/-- R128, R130, R120: SUB is Vx - Vy and SUBN Vy - Vx, modulo 256; VF is Vx >= Vy for SUB and strictly Vy > Vx for SUBN (C5), both
from the values before the instruction, the flag written last (D2, D4: the spec's own decisions; log 15, 16, 32). -/
def Obligations.SubtractSetsNoBorrow : Prop :=
  ∀ (s : State) (x y : Reg),
    (∃ t, exec (.subVxVy x y) s = .next t ∧
      (x ≠ vF → ((t.reg x).toNat : Int) = ((s.reg x).toNat - (s.reg y).toNat : Int) % 256) ∧
      (t.reg vF = if (s.reg y).toNat ≤ (s.reg x).toNat then 1 else 0) ∧
      t.pc = s.pc + 2 ∧ Frame { regs := fun r => r = x ∨ r = vF } s t) ∧
    (∃ t, exec (.subnVxVy x y) s = .next t ∧
      (x ≠ vF → ((t.reg x).toNat : Int) = ((s.reg y).toNat - (s.reg x).toNat : Int) % 256) ∧
      (t.reg vF = if (s.reg x).toNat < (s.reg y).toNat then 1 else 0) ∧
      t.pc = s.pc + 2 ∧ Frame { regs := fun r => r = x ∨ r = vF } s t)

/-- R129, R131, R120: the shifts move Vx by one bit with a zero entering, and VF is the bit that leaves, exactly 0 or 1, written
last (D2, D4: the spec's own decisions; log 15, 16). -/
def Obligations.ShiftsSetTheBitThatLeaves : Prop :=
  ∀ (s : State) (x : Reg),
    (∃ t, exec (.shrVx x) s = .next t ∧
      (x ≠ vF → ∀ k, (t.reg x).getLsbD k = (s.reg x).getLsbD (k + 1)) ∧
      (t.reg vF = if (s.reg x).getLsbD 0 then 1 else 0) ∧
      t.pc = s.pc + 2 ∧ Frame { regs := fun r => r = x ∨ r = vF } s t) ∧
    (∃ t, exec (.shlVx x) s = .next t ∧
      (x ≠ vF → (t.reg x).getLsbD 0 = false ∧ ∀ k, k < 7 → (t.reg x).getLsbD (k + 1) = (s.reg x).getLsbD k) ∧
      (t.reg vF = if (s.reg x).getLsbD 7 then 1 else 0) ∧
      t.pc = s.pc + 2 ∧ Frame { regs := fun r => r = x ∨ r = vF } s t)

/-- R132: RND writes the draw masked by kk, consumes one draw and sets no flag. That RAND is a free input of the step is D16, the
spec's own decision. Its form is the model's choice (log 3): the draw is the first byte of the list the host has named, whatever
it is, and where that list is empty the free value of a counter, for every value of the counter, which moves on. -/
def Obligations.RndMasksTheDraw : Prop :=
  ∀ (s : State) (x : Reg) (kk : Byte),
    (∀ (r : Byte) (rs : List Byte), s.randIn = r :: rs →
      ∃ t, exec (.rndVxKk x kk) s = .next t ∧ t.reg x = r &&& kk ∧ t.randIn = rs ∧ t.draws = s.draws ∧
        t.pc = s.pc + 2 ∧ Frame { regs := fun q => q = x, rand := True } s t) ∧
    (s.randIn = [] →
      ∃ t, exec (.rndVxKk x kk) s = .next t ∧ t.reg x = Config.freeRand s.draws &&& kk ∧ t.randIn = [] ∧
        t.draws = s.draws + 1 ∧ t.pc = s.pc + 2 ∧ Frame { regs := fun q => q = x, rand := True } s t)

/-! ### Index register and memory -/

/-- R140, R142: LD I loads the address, 0xFFF too, from which a later access of more than one byte (LD B; LD [I] and LD Vx, [I]
with x above 0; DRW with n above 1) faults; LD F points I at 0x050 + 5 * Vx, the digit not masked, and makes no access to memory.
What the fault leaves is D6 and D7, the spec's own decisions (log 19, 20). -/
def Obligations.IndexLoads : Prop :=
  (∀ a : Word, a.toNat ≤ 0xFFF → decode (BitVec.ofNat 16 (0xA000 + a.toNat)) = .known (.ldINnn a)) ∧
  (∀ x : Reg, decode (BitVec.ofNat 16 (0xF029 + x.val * 256)) = .known (.ldFVx x)) ∧
  (∀ (s : State) (a : Word), ∃ t, exec (.ldINnn a) s = .next t ∧ t.i = a ∧ t.pc = s.pc + 2 ∧ Frame { i := True } s t) ∧
  (∀ (s : State) (x : Reg), ∃ t, exec (.ldFVx x) s = .next t ∧ t.i.toNat = 0x050 + (s.reg x).toNat * 5 ∧
    t.pc = s.pc + 2 ∧ Frame { i := True } s t ∧
    ∀ m : Memory, exec (.ldFVx x) { s with mem := m } = .next { t with mem := m }) ∧
  (∀ (s t : State) (x y : Reg) (n : Nat), exec (.ldINnn 0xFFF) s = .next t →
    exec (.ldBVx x) t = .next { t with fault := ⟨.memoryOutOfRange, t.pc, 0x1000⟩ } ∧
    (x ≠ 0 → ∀ i ∈ [Instr.ldMemVx x, .ldVxMem x],
      exec i t = .next { t with fault := ⟨.memoryOutOfRange, t.pc, 0x1000⟩ }) ∧
    (2 ≤ n → exec (.drwVxVyN x y n) t = .next { t with fault := ⟨.memoryOutOfRange, t.pc, 0x1000⟩ }))

/-- R141: ADD I truncates to 16 bits, not 12, and VF says whether the sum before truncation exceeds 0xFFF; with x = F it adds the
old VF (D2, the spec's own decision; log 16). -/
def Obligations.AddIndexFlagsBeyondMemory : Prop :=
  ∀ (s : State) (x : Reg), ∃ t, exec (.addIVx x) s = .next t ∧
    t.i.toNat = (s.i.toNat + (s.reg x).toNat) % 65536 ∧
    (t.reg vF = if 0xFFF < s.i.toNat + (s.reg x).toNat then 1 else 0) ∧
    t.pc = s.pc + 2 ∧ Frame { regs := fun r => r = vF, i := True } s t

/-- R143: LD B stores the three decimal digits, hundreds first, at I to I+2, and they make up Vx; no other byte changes. The range
check is D7, the spec's own decision (log 20). -/
def Obligations.BcdStoresTheDigits : Prop :=
  ∀ (s : State) (x : Reg), s.base + 2 ≤ 0xFFF → ∃ t, exec (.ldBVx x) s = .next t ∧
    (t.byteAt s.base).toNat ≤ 2 ∧ (t.byteAt (s.base + 1)).toNat ≤ 9 ∧ (t.byteAt (s.base + 2)).toNat ≤ 9 ∧
    (t.byteAt s.base).toNat * 100 + (t.byteAt (s.base + 1)).toNat * 10 + (t.byteAt (s.base + 2)).toNat = (s.reg x).toNat ∧
    t.pc = s.pc + 2 ∧ Frame { mem := fun a => s.base ≤ a ∧ a ≤ s.base + 2 } s t

/-- R144: LD [I] stores V0 to Vx at I to I+x and changes no other byte, and not I. The range check is D7, the spec's own decision
(log 20). -/
def Obligations.StoreWritesTheRegisters : Prop :=
  ∀ (s : State) (x : Reg), s.base + x.val ≤ 0xFFF → ∃ t, exec (.ldMemVx x) s = .next t ∧
    (∀ k : Reg, k ≤ x → t.byteAt (s.base + k.val) = s.reg k) ∧
    t.pc = s.pc + 2 ∧ Frame { mem := fun a => s.base ≤ a ∧ a ≤ s.base + x.val } s t

/-- R145: LD Vx, [I] loads V0 to Vx from I to I+x, leaves the registers above x, I and every byte of memory. The range check is
D7, the spec's own decision (log 20). -/
def Obligations.LoadReadsTheRegisters : Prop :=
  ∀ (s : State) (x : Reg), s.base + x.val ≤ 0xFFF → ∃ t, exec (.ldVxMem x) s = .next t ∧
    (∀ k : Reg, k ≤ x → t.reg k = s.byteAt (s.base + k.val)) ∧
    t.pc = s.pc + 2 ∧ Frame { regs := fun r => r ≤ x } s t

/-- From R144 and R145: registers stored by Fx55 come back with Fx65, whatever the registers held in between. The range check is
D7, the spec's own decision (log 20). -/
def Obligations.StoreThenLoadRestoresRegisters : Prop :=
  ∀ (s : State) (x : Reg) (v' : Vector Byte 16), s.base + x.val ≤ 0xFFF →
    ∃ t u, exec (.ldMemVx x) s = .next t ∧ exec (.ldVxMem x) { t with v := v' } = .next u ∧
      (∀ r, r ≤ x → u.reg r = s.reg r) ∧ ∀ r, x < r → u.reg r = v'[r.val]

/-- R164, R54: DRW, LD B, LD [I] and LD Vx, [I] that would reach above 0xFFF raise MemoryOutOfRange with the lowest such address and
have no other effect (D6, D7, D12: the spec's own decisions; log 19, 20, 23). -/
def Obligations.AccessBeyondMemoryFaults : Prop :=
  ∀ (s : State) (x y : Reg) (n : Nat),
    (n ≠ 0 → 0xFFF < s.base + n - 1 → exec (.drwVxVyN x y n) s =
      .next { s with fault := ⟨.memoryOutOfRange, s.pc, if s.base ≤ 0xFFF then 0x1000 else s.i⟩ }) ∧
    (0xFFF < s.base + 2 → exec (.ldBVx x) s =
      .next { s with fault := ⟨.memoryOutOfRange, s.pc, if s.base ≤ 0xFFF then 0x1000 else s.i⟩ }) ∧
    (0xFFF < s.base + x.val → exec (.ldMemVx x) s =
        .next { s with fault := ⟨.memoryOutOfRange, s.pc, if s.base ≤ 0xFFF then 0x1000 else s.i⟩ } ∧
      exec (.ldVxMem x) s =
        .next { s with fault := ⟨.memoryOutOfRange, s.pc, if s.base ≤ 0xFFF then 0x1000 else s.i⟩ })

/-! ### Keys and timers -/

/-- R150, R151: SKP and SKNP skip one word when key Vx is, or is not, pressed, and change nothing but PC, for a key index up to 0xF
(D8, the spec's own decision; log 21). -/
def Obligations.KeySkips : Prop :=
  ∀ (s : State) (x : Reg), (s.reg x).toNat ≤ 0xF →
    exec (.skpVx x) s = .next { s with pc := if s.key.getLsbD (s.reg x).toNat then s.pc + 4 else s.pc + 2 } ∧
    exec (.sknpVx x) s = .next { s with pc := if s.key.getLsbD (s.reg x).toNat then s.pc + 2 else s.pc + 4 }

/-- R152: LD Vx, K goes on when key Vx is pressed; else the state does not change at all and the same instruction runs again at the
next step (D8 for the range of the index, the spec's own decision; log 21). -/
def Obligations.KeyWaitSpins : Prop :=
  ∀ (s : State) (x : Reg), (s.reg x).toNat ≤ 0xF →
    (s.key.getLsbD (s.reg x).toNat = true → exec (.ldVxK x) s = .next { s with pc := s.pc + 2 }) ∧
    (s.key.getLsbD (s.reg x).toNat = false → exec (.ldVxK x) s = .next s)

/-- R165: SKP, SKNP and LD Vx, K with Vx above 0xF raise KeyIndexOutOfRange with the index and have no other effect (D6, D8: the
spec's own decisions; log 19, 21). -/
def Obligations.KeyIndexBeyondTheLatchFaults : Prop :=
  ∀ (s : State) (x : Reg), 0xF < (s.reg x).toNat → ∀ i ∈ [Instr.skpVx x, .sknpVx x, .ldVxK x],
    exec i s = .next { s with fault := ⟨.keyIndexOutOfRange, s.pc, (s.reg x).setWidth 16⟩ }

/-- R153, R154: LD Vx, DT reads the delay timer and LD DT, Vx sets it; a timer set to 0 stays at 0. -/
def Obligations.DelayTimerReadAndSet : Prop :=
  (∀ x : Reg, decode (BitVec.ofNat 16 (0xF007 + x.val * 256)) = .known (.ldVxDt x) ∧
    decode (BitVec.ofNat 16 (0xF015 + x.val * 256)) = .known (.ldDtVx x)) ∧
  (∀ (s : State) (x : Reg),
    (∃ t, exec (.ldVxDt x) s = .next t ∧ t.reg x = s.dt ∧ t.pc = s.pc + 2 ∧ Frame { regs := fun r => r = x } s t) ∧
    (∃ t, exec (.ldDtVx x) s = .next t ∧ t.dt = s.reg x ∧ t.pc = s.pc + 2 ∧ Frame { dt := True } s t ∧
      (s.reg x = 0 → t.tickDt.dt = 0)))

/-- R155: LD ST, Vx sets the sound timer, and SOUND is on exactly while it is not zero (the output is D22, the spec's own decision;
log 29). -/
def Obligations.SoundTimerSet : Prop :=
  ∀ (s : State) (x : Reg), ∃ t, exec (.ldStVx x) s = .next t ∧ t.st = s.reg x ∧
    (t.sound = true ↔ s.reg x ≠ 0) ∧ t.pc = s.pc + 2 ∧ Frame { st := True } s t

/-! ### Rules over all instructions -/

/-- R22 to R24 (R23 is derived by the spec): no instruction changes a register the table does not say it writes, nor I unless it is
Annn, Fx1E or Fx29. -/
def Obligations.RegistersChangeOnlyAsTheTableSays : Prop :=
  ∀ (i : Instr) (s t : State), exec i s = .next t →
    (∀ r, t.reg r ≠ s.reg r → writesReg i r) ∧ (t.i ≠ s.i → writesI i = true)

/-- R23 (derived by the spec): an instruction that completes depends on no register the table does not say it reads: with other
values there, it writes the same results, keeps those values elsewhere, and leaves the rest of the state the same. -/
def Obligations.RegistersMatterOnlyAsTheTableSays : Prop :=
  ∀ (i : Instr) (s t : State) (v' : Vector Byte 16), exec i s = .next t → ¬ t.halted →
    (∀ r, readsReg i r → v'[r.val] = s.reg r) →
    ∃ t', exec i { s with v := v' } = .next t' ∧ (∀ r, writesReg i r → t'.reg r = t.reg r) ∧
      (∀ r, ¬ writesReg i r → t'.reg r = v'[r.val]) ∧ { t' with v := t.v } = t

/-- R92: CLS and DRW are the only instructions that touch the framebuffer: every other runs the same whatever it holds and leaves
it; CLS does not read it; LOAD clears it. -/
def Obligations.FramebufferIsTheControllersAlone : Prop :=
  (∀ (i : Instr) (s t : State) (fb : Framebuffer), touchesFb i = false → exec i s = .next t →
    t.fb = s.fb ∧ exec i { s with fb := fb } = .next { t with fb := fb }) ∧
  (∀ (s : State) (fb : Framebuffer), exec .cls { s with fb := fb } = exec .cls s) ∧
  (∀ (font : Vector Byte 80) (rom : List Byte) (s : State), loadWith font rom = .machine s →
    ∀ c r, s.pixelAt c r = false)

/-- R31: no step writes the key latch and of the host's operations only SET_KEYS does; only Ex9E, ExA1 and Fx0A read it, and only
the entry Vx names. -/
def Obligations.KeyLatchIsReadOnlyToTheCore : Prop :=
  (∀ s t : State, step s = .next t → t.key = s.key) ∧
  (∀ (s t : State) (op : HostOp), s.apply op = .next t → t.key = s.key ∨ ∃ k, op = .setKeys k ∧ t.key = k) ∧
  (∀ (i : Instr) (s t : State) (k : BitVec 16), readsKey i = false → exec i s = .next t →
    exec i { s with key := k } = .next { t with key := k }) ∧
  (∀ (s t : State) (x : Reg) (k : BitVec 16), k.getLsbD (s.reg x).toNat = s.key.getLsbD (s.reg x).toNat →
    ∀ i ∈ [Instr.skpVx x, .sknpVx x, .ldVxK x], exec i s = .next t →
      exec i { s with key := k } = .next { t with key := k })

/-- R29: only CALL and RET touch the call stack: every other instruction, with its accesses to memory, runs the same whatever the
stack holds and leaves it; no address of memory reaches it. That there is no entry at or above SP, where R29 says only that such
an entry holds no value anything can observe, is the model's choice (log 35). -/
def Obligations.CallStackIsOnlyPushedAndPopped : Prop :=
  (∀ (i : Instr) (s t : State) (stack : List Word), touchesStack i = false → exec i s = .next t →
    t.stack = s.stack ∧ exec i { s with stack := stack } = .next { t with stack := stack }) ∧
  (∀ (s : State) (stack : List Word) (a : Nat), ({ s with stack := stack } : State).byteAt a = s.byteAt a) ∧
  (∀ (s : State) (k : Nat), s.sp ≤ k → s.stackEntry k = none)

/-- R51: which accesses are made: the fetch reads PC and PC+1, DRW its sprite, Fx65 its range; Fx33 and Fx55 write theirs and read
nothing; no other instruction touches memory, and of the host's operations on a running machine none but STEP. -/
def Obligations.MemoryIsTouchedOnlyAsTheTableSays : Prop :=
  (∀ (s : State) (m : Memory), m.read s.pc.toNat = s.byteAt s.pc.toNat →
    m.read (s.pc.toNat + 1) = s.byteAt (s.pc.toNat + 1) → ({ s with mem := m } : State).fetchWord = s.fetchWord) ∧
  (∀ (i : Instr) (s t : State) (m : Memory), touchesMem i = false → exec i s = .next t →
    exec i { s with mem := m } = .next { t with mem := m }) ∧
  (∀ (i : Instr) (s t : State) (a : Nat), exec i s = .next t → t.byteAt a ≠ s.byteAt a → writesMem i s a) ∧
  (∀ (s t : State) (x y : Reg) (n : Nat) (m : Memory), exec (.drwVxVyN x y n) s = .next t →
    (∀ k, k < n → m.read (s.base + k) = s.byteAt (s.base + k)) →
    exec (.drwVxVyN x y n) { s with mem := m } = .next { t with mem := m }) ∧
  (∀ (s t : State) (x : Reg) (m : Memory), exec (.ldVxMem x) s = .next t →
    (∀ k, k ≤ x.val → m.read (s.base + k) = s.byteAt (s.base + k)) →
    exec (.ldVxMem x) { s with mem := m } = .next { t with mem := m }) ∧
  (∀ (s t : State) (x : Reg) (m : Memory), ∀ i ∈ [Instr.ldBVx x, .ldMemVx x], exec i s = .next t →
    ∃ t', exec i { s with mem := m } = .next t' ∧ { t' with mem := t.mem } = t ∧
      (¬ t.halted → ∀ a, writesMem i s a → t'.byteAt a = t.byteAt a)) ∧
  (∀ (s t : State) (op : HostOp), (∀ r, op ≠ .step r) → s.apply op = .next t → t.mem = s.mem)

/-- R26: only Fx15 changes DT in a step, to Vx; only Fx07 reads it; a tick takes 1 off, never below 0. -/
def Obligations.DelayTimerOnlyByItsInstructions : Prop :=
  (∀ (i : Instr) (s t : State), exec i s = .next t → t.dt = s.dt ∨ ∃ x, i = .ldDtVx x ∧ t.dt = s.reg x) ∧
  (∀ s t : State, step s = .next t →
    t.dt = s.dt ∨ ∃ x, decode s.fetchWord = .known (.ldDtVx x) ∧ t.dt = s.reg x) ∧
  (∀ (i : Instr) (s t : State) (d : Byte), (∀ x, i ≠ .ldVxDt x) → exec i s = .next t →
    ∃ d', exec i { s with dt := d } = .next { t with dt := d' }) ∧
  (∀ s : State, s.tickDt.dt.toNat = s.dt.toNat - 1 ∧ s.tickDt = { s with dt := s.tickDt.dt })

/-- R171: any number of ticks takes that much off a timer, saturating at 0, and off no other; a run of ticks of both comes out the
same in any order (D21, the spec's own decision; log 28). -/
def Obligations.TicksSaturateIndependently : Prop :=
  ∀ (ops : List HostOp) (s : State), (∀ op ∈ ops, op = .tickDt ∨ op = .tickSt) →
    ∃ t, State.run ops s = .next t ∧
      t.dt.toNat = s.dt.toNat - ops.count .tickDt ∧ t.st.toNat = s.st.toNat - ops.count .tickSt ∧
      t = { s with dt := t.dt, st := t.st }

/-- R200, R27: a tick of the sound timer before a step or after it is the same, unless the step sets that timer (D25, the spec's own
decision; log 31). -/
def Obligations.SoundTicksCommuteWithSteps : Prop :=
  ∀ s t : State, step s = .next t → (∀ x, decode s.fetchWord ≠ .known (.ldStVx x)) → step s.tickSt = .next t.tickSt

/-! ### Host ports -/

/-- R175, R37, R32: SET_KEYS sets each of the 16 entries and nothing else; the stack top, none when SP = 0, SOUND, and FAULT as the
host reads it, its code as a number, then its pc and its info (D19, D22, D23: the spec's own decisions; log 13, 29). -/
def Obligations.HostPorts : Prop :=
  (∀ (s : State) (k : BitVec 16), ∃ t, s.apply (.setKeys k) = .next t ∧
    (∀ j, j < 16 → t.key.getLsbD j = k.getLsbD j) ∧ t = { s with key := t.key }) ∧
  (∀ s : State, (s.stackTop = none ↔ s.sp = 0) ∧ (s.sp ≠ 0 → s.stackTop = s.stackEntry (s.sp - 1)) ∧
    (s.sound = true ↔ s.st ≠ 0)) ∧
  (∀ s : State, s.faultPort.1.toNat = match s.fault.code with
    | .none => 0 | .stackOverflow => 1 | .stackUnderflow => 2 | .memoryOutOfRange => 3 | .keyIndexOutOfRange => 4) ∧
  (∀ s : State, s.faultPort.2 = (s.fault.pc, s.fault.info))

/-! ### The invariant -/

/-- The invariant of R39, with the canonical memory (log 5) and the meaning of FAULT (R32, R161), holds at reset. -/
def Obligations.InvariantHoldsAtReset : Prop := State.reset.Inv

/-- Every step keeps the invariant of R39, with the canonical memory (log 5, the model's choice) and the meaning of FAULT, from
every state that meets it. -/
def Obligations.StepKeepsTheInvariant : Prop := ∀ s t : State, s.Inv → step s = .next t → t.Inv

/-- Every machine LOAD builds meets the invariant of R39, with the canonical memory (log 5, the model's choice), each of the host's
operations STEP, TICK_DT, TICK_ST and SET_KEYS keeps it from every state that meets it, and so every state a host can bring about
by them, in any order, meets it. -/
def Obligations.EveryReachableStateMeetsTheInvariant : Prop :=
  (∀ (font : Vector Byte 80) (rom : List Byte) (s : State), loadWith font rom = .machine s → s.Inv) ∧
  (∀ (s t : State) (op : HostOp), s.Inv → s.apply op = .next t → t.Inv) ∧
  ∀ s : State, Reachable s → s.Inv
end

