-- ==== Sys2Proof/Laws/Decode.lean ====
section
/-! SUPPORT. Encoded words, fields and the masks of the opcode table as numbers, so that questions about encodings become
linear arithmetic; and that the decoder answers well-formed instructions only. -/

namespace Sys2Proof

/-! ### Encoded words as numbers -/

theorem toNat_wordNnn {c : Nat} {a : Word} (hc : c < 16) (ha : a.toNat < 4096) :
    (wordNnn c a).toNat = c * 4096 + a.toNat := by
  simp only [wordNnn, BitVec.toNat_ofNat]; omega

theorem toNat_wordXKk {c : Nat} (hc : c < 16) (x : Reg) (kk : Byte) :
    (wordXKk c x kk).toNat = c * 4096 + x.val * 256 + kk.toNat := by
  have := x.isLt; have := kk.isLt
  simp only [wordXKk, BitVec.toNat_ofNat]; omega

theorem toNat_wordXYN {c n : Nat} (hc : c < 16) (hn : n < 16) (x y : Reg) :
    (wordXYN c x y n).toNat = c * 4096 + x.val * 256 + y.val * 16 + n := by
  have := x.isLt; have := y.isLt
  simp only [wordXYN, BitVec.toNat_ofNat]; omega

/-! ### Fields as numbers -/

theorem fieldX_val (w : Word) : (fieldX w).val = w.toNat / 256 % 16 := rfl

theorem fieldY_val (w : Word) : (fieldY w).val = w.toNat / 16 % 16 := rfl

theorem toNat_fieldKk (w : Word) : (fieldKk w).toNat = w.toNat % 256 := by
  simp only [fieldKk, BitVec.toNat_ofNat]; omega

theorem toNat_fieldNnn (w : Word) : (fieldNnn w).toNat = w.toNat % 4096 := by
  simp only [fieldNnn, BitVec.toNat_ofNat]; omega

/-- A byte equals a literal when their numbers do: the form the decoder's tests take in arithmetic. -/
theorem fieldKk_eq_iff (w : Word) (b : Byte) : fieldKk w = b ↔ w.toNat % 256 = b.toNat := by
  rw [← toNat_fieldKk, BitVec.toNat_inj]

/-- A word's high and low byte put together again are the word (R55, R71). -/
theorem wordOfBytes_split (w : Word) : wordOfBytes (highByte w) (lowByte w) = w := by
  have := w.isLt
  apply BitVec.eq_of_toNat_eq
  simp only [wordOfBytes, highByte, lowByte, BitVec.toNat_ofNat]; omega

/-- The word of two bytes as a number (R71). -/
theorem toNat_wordOfBytes (b1 b2 : Byte) : (wordOfBytes b1 b2).toNat = b1.toNat * 256 + b2.toNat := by
  have := b1.isLt; have := b2.isLt
  simp only [wordOfBytes, BitVec.toNat_ofNat]; omega

/-! ### Masks as numbers -/

/-- A mask of `k` bits from bit `s` keeps those bits in their place. -/
theorem and_mask_shift (x s k : Nat) : x &&& ((2 ^ k - 1) * 2 ^ s) = x / 2 ^ s % 2 ^ k * 2 ^ s := by
  apply Nat.eq_of_testBit_eq
  intro j
  rw [Nat.testBit_and, Nat.mul_comm _ (2 ^ s), Nat.mul_comm _ (2 ^ s), Nat.testBit_two_pow_mul,
    Nat.testBit_two_pow_mul, Nat.testBit_two_pow_sub_one, Nat.testBit_mod_two_pow, Nat.testBit_div_two_pow]
  by_cases h : s ≤ j
  · rw [Nat.sub_add_cancel h]; simp [h, Bool.and_comm]
  · simp [h]

/-- A mask made of two parts, the upper above every bit of the lower, keeps both. -/
theorem and_mask_add (x a b s : Nat) (hb : b < 2 ^ s) :
    x &&& (2 ^ s * a + b) = (x &&& 2 ^ s * a) + (x &&& b) := by
  have h1 : x &&& 2 ^ s * a = 2 ^ s * (x / 2 ^ s &&& a) := by
    apply Nat.eq_of_testBit_eq; intro j
    rw [Nat.testBit_and, Nat.testBit_two_pow_mul, Nat.testBit_two_pow_mul, Nat.testBit_and, Nat.testBit_div_two_pow]
    by_cases h : s ≤ j
    · rw [Nat.sub_add_cancel h]; simp [h]
    · simp [h]
  have h2 : x &&& b < 2 ^ s := Nat.lt_of_le_of_lt Nat.and_le_right hb
  rw [h1, Nat.two_pow_add_eq_or_of_lt hb, Nat.and_or_distrib_left, h1, Nat.two_pow_add_eq_or_of_lt h2]

/-- The mask of the rows keyed by the class alone (R75). -/
theorem toNat_and_F000 (w : Word) : (w &&& 0xF000#16).toNat = w.toNat / 4096 * 4096 := by
  have := w.isLt
  have h1 : w.toNat &&& 0xF000 = w.toNat / 4096 % 16 * 4096 := and_mask_shift w.toNat 12 4
  rw [BitVec.toNat_and]
  show w.toNat &&& 0xF000 = _
  rw [h1]; omega

/-- The mask of the rows keyed by class and kk (R75). -/
theorem toNat_and_F0FF (w : Word) : (w &&& 0xF0FF#16).toNat = w.toNat / 4096 * 4096 + w.toNat % 256 := by
  have := w.isLt
  have h : w.toNat &&& 0xF0FF = (w.toNat &&& 0xF000) + (w.toNat &&& 0xFF) :=
    and_mask_add w.toNat 0xF0 0xFF 8 (by decide)
  have h1 : w.toNat &&& 0xF000 = w.toNat / 4096 % 16 * 4096 := and_mask_shift w.toNat 12 4
  have h2 : w.toNat &&& 0xFF = w.toNat % 256 := Nat.and_two_pow_sub_one_eq_mod w.toNat 8
  rw [BitVec.toNat_and]
  show w.toNat &&& 0xF0FF = _
  rw [h, h1, h2]; omega

/-- The mask of the rows keyed by class and n (R75). -/
theorem toNat_and_F00F (w : Word) : (w &&& 0xF00F#16).toNat = w.toNat / 4096 * 4096 + w.toNat % 16 := by
  have := w.isLt
  have h : w.toNat &&& 0xF00F = (w.toNat &&& 0xF000) + (w.toNat &&& 0xF) :=
    and_mask_add w.toNat 0xF00 0xF 4 (by decide)
  have h1 : w.toNat &&& 0xF000 = w.toNat / 4096 % 16 * 4096 := and_mask_shift w.toNat 12 4
  have h2 : w.toNat &&& 0xF = w.toNat % 16 := Nat.and_two_pow_sub_one_eq_mod w.toNat 4
  rw [BitVec.toNat_and]
  show w.toNat &&& 0xF00F = _
  rw [h, h1, h2]; omega

/-- The used bits of 5xy0 and 9xy0 (R77). -/
theorem toNat_and_FFF0 (w : Word) : (w &&& 0xFFF0#16).toNat = w.toNat / 16 * 16 := by
  have := w.isLt
  have h1 : w.toNat &&& 0xFFF0 = w.toNat / 16 % 4096 * 16 := and_mask_shift w.toNat 4 12
  rw [BitVec.toNat_and]
  show w.toNat &&& 0xFFF0 = _
  rw [h1]; omega

/-- The used bits of 8xy6 and 8xyE (R77). -/
theorem toNat_and_FF0F (w : Word) : (w &&& 0xFF0F#16).toNat = w.toNat / 256 * 256 + w.toNat % 16 := by
  have := w.isLt
  have h : w.toNat &&& 0xFF0F = (w.toNat &&& 0xFF00) + (w.toNat &&& 0xF) :=
    and_mask_add w.toNat 0xFF 0xF 8 (by decide)
  have h1 : w.toNat &&& 0xFF00 = w.toNat / 256 % 256 * 256 := and_mask_shift w.toNat 8 8
  have h2 : w.toNat &&& 0xF = w.toNat % 16 := Nat.and_two_pow_sub_one_eq_mod w.toNat 4
  rw [BitVec.toNat_and]
  show w.toNat &&& 0xFF0F = _
  rw [h, h1, h2]; omega

/-- A row selects a word when the masked numbers agree (R75). -/
theorem OpcodeRow.selects_iff (r : OpcodeRow) (w : Word) :
    r.selects w ↔ (w &&& r.mask).toNat = r.bits.toNat := by
  rw [OpcodeRow.selects, BitVec.toNat_inj]

/-! ### What the decoder answers -/

/-- A property of every instruction two answers may give is one of the answer chosen between them. -/
theorem known_ite {p : Prop} [Decidable p] {a b : Decoded} {Q : Instr → Prop} (ha : ∀ i, a = .known i → Q i)
    (hb : ∀ i, b = .known i → Q i) (i : Instr) (h : (if p then a else b) = .known i) : Q i := by
  by_cases hp : p
  · exact ha i (by rwa [if_pos hp] at h)
  · exact hb i (by rwa [if_neg hp] at h)

/-- Every instruction the decoder answers is well-formed (R71, R72). -/
theorem decode_wellFormed (w : Word) : ∀ i, decode w = .known i → i.wellFormed = true := by
  have hw := toNat_fieldNnn w
  have hn : fieldN w < 16 := Nat.mod_lt _ (by decide)
  unfold decode decodeClass0 decodeClass8 decodeClassE decodeClassF
  repeat' apply known_ite
  all_goals intro i h; cases h
  all_goals first
    | rfl
    | exact decide_eq_true hn
    | exact decide_eq_true (show (fieldNnn w).toNat < 0x1000 by omega)

end Sys2Proof
end

