-- ==== Sys2Proof/Laws/Display.lean ====
section
/-! SUPPORT. The framebuffer pixel by pixel: what clearing, one toggle, a sprite row and a sprite do to every pixel of the
grid and to the collision bit. -/

namespace Sys2Proof.Machine

/-- Every pixel of the blank framebuffer is off (R38, R90). -/
theorem Framebuffer.pixel_blank (c r : Nat) : Framebuffer.blank.pixel c r = false := by
  simp [Framebuffer.pixel, Framebuffer.blank]

/-- There is no pixel outside the grid. -/
theorem Framebuffer.pixel_outside (fb : Framebuffer) {c r : Nat} (h : ¬ (c < 64 ∧ r < 32)) : fb.pixel c r = false := by
  simp [Framebuffer.pixel, h]

/-- A toggle changes its own pixel, if that is in the grid, and no other. -/
theorem Framebuffer.pixel_toggle (fb : Framebuffer) (c r c' r' : Nat) :
    (fb.toggle c r).pixel c' r' =
      if (c' = c ∧ r' = r) ∧ c < 64 ∧ r < 32 then !fb.pixel c r else fb.pixel c' r' := by
  unfold Framebuffer.toggle
  by_cases h : c < 64 ∧ r < 32
  · by_cases h' : c' < 64 ∧ r' < 32
    · simp only [h, h', Framebuffer.pixel, dif_pos, Vector.getElem_set, and_self, and_true]
      by_cases hr : r' = r
      · subst hr
        simp only [if_true, Vector.getElem_set, and_true]
        by_cases hc : c' = c
        · subst hc; simp
        · simp [hc, Ne.symm hc]
      · simp [hr, Ne.symm hr]
    · have : ¬ (c' = c ∧ r' = r) := fun e => h' (by rw [e.1, e.2]; exact h)
      simp [Framebuffer.pixel_outside _ h', this]
  · simp [h]

/-- Two framebuffers with the same pixels are equal. -/
theorem Framebuffer.ext_pixel {f g : Framebuffer}
    (h : ∀ c r, c < 64 → r < 32 → f.pixel c r = g.pixel c r) : f = g := by
  refine Vector.ext fun r hr => Vector.ext fun c hc => ?_
  simpa [Framebuffer.pixel, hc, hr] using h c r hc hr

/-- What one sprite row does, for its columns from `j` to 7, at a grid row `r`: each lit bit toggles its pixel inside the
grid, and the collision bit collects the pixels that were on (R91). -/
theorem drawColumns_spec (vx r : Nat) (row : Byte) (hr : r < 32) (k j : Nat) (d : Drawing) :
    (∀ c q, (drawColumns vx r row (List.range' j k) d).fb.pixel c q =
      if q = r ∧ (vx + j ≤ c ∧ c < vx + j + k) ∧ c < 64 then xor (d.fb.pixel c q) (spriteBit row (c - vx))
      else d.fb.pixel c q) ∧
    ((drawColumns vx r row (List.range' j k) d).collision = true ↔
      d.collision = true ∨ ∃ c, (vx + j ≤ c ∧ c < vx + j + k) ∧ c < 64 ∧ spriteBit row (c - vx) = true ∧
        d.fb.pixel c r = true) := by
  induction k generalizing j d with
  | zero =>
    refine ⟨fun c q => ?_, ?_⟩
    · simp only [List.range'_zero, drawColumns]; rw [if_neg (by omega)]
    · simp only [List.range'_zero, drawColumns]
      exact ⟨.inl, fun h => h.elim id fun ⟨c, h, _⟩ => by omega⟩
  | succ k ih =>
    rw [List.range'_succ, drawColumns]
    by_cases hw : Config.fbWidth ≤ vx + j
    · have hw' : 64 ≤ vx + j := hw
      rw [if_pos hw]
      refine ⟨fun c q => by rw [if_neg (by omega)], .inl, fun h => h.elim id fun ⟨c, h1, h2, _⟩ => by omega⟩
    · have hw' : vx + j < 64 := Nat.lt_of_not_le hw
      rw [if_neg hw]
      obtain ⟨ih1, ih2⟩ := ih (j + 1) (if spriteBit row j then d.flip (vx + j) r else d)
      by_cases hb : spriteBit row j = true
      · simp only [hb, if_true, Drawing.flip] at ih1 ih2 ⊢
        refine ⟨fun c q => ?_, ?_⟩
        · rw [ih1, Framebuffer.pixel_toggle]
          by_cases hc : c = vx + j
          · subst hc
            rw [if_neg (by omega)]
            by_cases hq : q = r
            · subst hq
              rw [if_pos ⟨⟨rfl, rfl⟩, hw', hr⟩, if_pos ⟨rfl, by omega, hw'⟩, Nat.add_sub_cancel_left, hb]
              simp
            · rw [if_neg (by simp [hq]), if_neg (by simp [hq])]
          · have off : ¬ ((c = vx + j ∧ q = r) ∧ vx + j < 64 ∧ r < 32) := fun h => hc h.1.1
            simp only [if_neg off]
            have : (vx + (j + 1) ≤ c ∧ c < vx + (j + 1) + k) ↔ (vx + j ≤ c ∧ c < vx + j + (k + 1)) := by omega
            simp only [this]
        · rw [ih2]
          simp only [Bool.or_eq_true, Framebuffer.pixel_toggle]
          constructor
          · rintro ((h | h) | ⟨c, h1, h2, h3, h4⟩)
            · exact .inl h
            · exact .inr ⟨vx + j, by omega, hw', by rwa [Nat.add_sub_cancel_left], h⟩
            · rw [if_neg (by omega)] at h4
              exact .inr ⟨c, by omega, h2, h3, h4⟩
          · rintro (h | ⟨c, h1, h2, h3, h4⟩)
            · exact .inl (.inl h)
            · by_cases hc : c = vx + j
              · subst hc; exact .inl (.inr h4)
              · exact .inr ⟨c, by omega, h2, h3, by rwa [if_neg (by omega)]⟩
      · have hb' : spriteBit row j = false := by simpa using hb
        simp only [hb', if_false, Bool.false_eq_true] at ih1 ih2 ⊢
        refine ⟨fun c q => ?_, ?_⟩
        · rw [ih1]
          by_cases hc : c = vx + j
          · subst hc
            rw [if_neg (by omega), Nat.add_sub_cancel_left, hb']
            simp
          · have : (vx + (j + 1) ≤ c ∧ c < vx + (j + 1) + k) ↔ (vx + j ≤ c ∧ c < vx + j + (k + 1)) := by omega
            simp only [this]
        · rw [ih2]
          refine or_congr Iff.rfl ⟨fun ⟨c, h1, h⟩ => ⟨c, by omega, h⟩, fun ⟨c, h1, h2, h3, h4⟩ => ?_⟩
          by_cases hc : c = vx + j
          · subst hc; rw [Nat.add_sub_cancel_left, hb'] at h3; cases h3
          · exact ⟨c, by omega, h2, h3, h4⟩

/-- The bit of a sprite at a column and row of the grid, none outside its 8 columns and its rows. -/
def spriteBitAt (vx r0 : Nat) (sprite : List Byte) (c r : Nat) : Bool :=
  decide (vx ≤ c ∧ c < vx + 8 ∧ r0 ≤ r) &&
    match sprite[r - r0]? with
    | some row => spriteBit row (c - vx)
    | none => false

/-- What drawing a sprite does to every pixel and to the collision bit (R91): each lit bit inside the grid toggles its pixel,
and a collision is a pixel that was on. -/
theorem drawRows_spec (vx : Nat) (sprite : List Byte) (r0 : Nat) (d : Drawing) :
    (∀ c r, c < 64 → r < 32 → (drawRows vx r0 sprite d).fb.pixel c r =
      xor (d.fb.pixel c r) (spriteBitAt vx r0 sprite c r)) ∧
    ((drawRows vx r0 sprite d).collision = true ↔
      d.collision = true ∨
        ∃ c r, c < 64 ∧ r < 32 ∧ spriteBitAt vx r0 sprite c r = true ∧ d.fb.pixel c r = true) := by
  induction sprite generalizing r0 d with
  | nil => simp [drawRows, spriteBitAt]
  | cons row rows ih =>
    rw [drawRows]
    by_cases hr0 : Config.fbHeight ≤ r0
    · have hr0' : 32 ≤ r0 := hr0
      rw [if_pos hr0]
      have key : ∀ c r, r < 32 → spriteBitAt vx r0 (row :: rows) c r = false := fun c r hr => by
        have : ¬ r0 ≤ r := by omega
        simp [spriteBitAt, this]
      refine ⟨fun c r _ hr => by simp [key c r hr], .inl, fun h => h.elim id ?_⟩
      rintro ⟨c, r, _, hr, h, _⟩
      rw [key c r hr] at h; cases h
    · have hr0' : r0 < 32 := Nat.lt_of_not_le hr0
      rw [if_neg hr0]
      obtain ⟨ih1, ih2⟩ := ih (r0 + 1) (drawColumns vx r0 row (List.range 8) d)
      obtain ⟨c1, c2⟩ := drawColumns_spec vx r0 row hr0' 8 0 d
      rw [← List.range_eq_range'] at c1 c2
      simp only [Nat.add_zero] at c1 c2
      have first : ∀ c, spriteBitAt vx r0 (row :: rows) c r0 =
          (decide (vx ≤ c ∧ c < vx + 8) && spriteBit row (c - vx)) := fun c => by
        simp [spriteBitAt]
      have nextOff : ∀ c, spriteBitAt vx (r0 + 1) rows c r0 = false := fun c => by
        simp [spriteBitAt]
      have later : ∀ c r, r ≠ r0 → spriteBitAt vx r0 (row :: rows) c r = spriteBitAt vx (r0 + 1) rows c r := by
        intro c r hr
        simp only [spriteBitAt]
        by_cases h : r0 ≤ r
        · have e : r - r0 = (r - (r0 + 1)) + 1 := by omega
          have h' : r0 + 1 ≤ r := by omega
          rw [e, List.getElem?_cons_succ]
          simp [h, h']
        · have h' : ¬ r0 + 1 ≤ r := by omega
          simp [h, h']
      refine ⟨fun c r hc hr => ?_, ?_⟩
      · rw [ih1 c r hc hr, c1]
        by_cases h : r = r0
        · subst h
          rw [nextOff, first]
          by_cases h' : vx ≤ c ∧ c < vx + 8 <;> simp [h', hc]
        · rw [later c r h]; simp [h]
      · rw [ih2, c2]
        constructor
        · rintro ((h | ⟨c, h1, h2, h3, h4⟩) | ⟨c, r, hc, hr, h1, h2⟩)
          · exact .inl h
          · exact .inr ⟨c, r0, h2, hr0', by rw [first]; simp [h1, h3], h4⟩
          · have h : r ≠ r0 := fun e => by rw [e, nextOff] at h1; cases h1
            rw [c1] at h2
            simp only [h, false_and, if_false] at h2
            exact .inr ⟨c, r, hc, hr, by rw [later c r h]; exact h1, h2⟩
        · rintro (h | ⟨c, r, hc, hr, h1, h2⟩)
          · exact .inl (.inl h)
          · by_cases h : r = r0
            · subst h
              rw [first] at h1
              simp only [Bool.and_eq_true, decide_eq_true_eq] at h1
              exact .inl (.inr ⟨c, h1.1, hc, h1.2, h2⟩)
            · rw [later c r h] at h1
              refine .inr ⟨c, r, hc, hr, h1, ?_⟩
              rw [c1]; simpa [h] using h2

end Sys2Proof.Machine
end

