-- ==== Sys2Proof/Laws/Memory.lean ====
section
/-! SUPPORT. What reading, writing and checking memory do, said once: a write is seen at its address and nowhere else, and
every operation keeps the canonical form. -/

namespace Sys2Proof.Machine

/-! ### One entry -/

theorem Memory.listed_insert (m : Memory) (a : Nat) (b : Byte) (c : Nat) :
    (m.insert a b).listed c = if c = a then some b else m.listed c := by
  induction m with
  | nil => simp [Memory.insert, Memory.listed, eq_comm]
  | cons e m ih =>
    obtain ⟨k, d⟩ := e
    simp only [Memory.insert]
    split
    · simp [Memory.listed, eq_comm]
    · split <;> rename_i h1 h2
      · subst h2; by_cases h : c = a <;> simp [Memory.listed, h, @eq_comm _ a c]
      · by_cases h : c = a
        · subst h; simp [Memory.listed, ih, Ne.symm h2]
        · simp [Memory.listed, ih, h]

theorem Memory.listed_erase (m : Memory) (a c : Nat) :
    (m.erase a).listed c = if c = a then none else m.listed c := by
  induction m with
  | nil => simp [Memory.erase, Memory.listed]
  | cons e m ih =>
    obtain ⟨k, d⟩ := e
    simp only [Memory.erase]
    split <;> rename_i h1
    · subst h1
      by_cases h : c = a
      · rw [ih, if_pos h, if_pos h]
      · simp [Memory.listed, ih, h, @eq_comm _ a c]
    · by_cases h : c = a
      · subst h; simp [Memory.listed, ih, Ne.symm h1]
      · simp [Memory.listed, ih, h]

/-- What one write does to every address (R52). -/
theorem Memory.known_write (m : Memory) (a : Nat) (b : Byte) (c : Nat) :
    (m.write a b).known c = if c = a ∧ a < Config.memSize then some b else m.known c := by
  unfold Memory.write
  split <;> rename_i h1
  · simp [Nat.not_lt.mpr h1]
  · have h1' : a < Config.memSize := Nat.lt_of_not_le h1
    split <;> rename_i h2
    · by_cases h : c = a
      · subst h; simp [Memory.known, Memory.listed_erase, h2, h1']
      · simp [Memory.known, Memory.listed_erase, h]
    · by_cases h : c = a
      · subst h; simp [Memory.known, Memory.listed_insert, h1']
      · simp [Memory.known, Memory.listed_insert, h]

/-- What one write does to every read (R52). -/
theorem Memory.read_write (m : Memory) (a : Nat) (b : Byte) (c : Nat) :
    (m.write a b).read c = if c = a ∧ a < Config.memSize then b else m.read c := by
  simp only [Memory.read, Memory.known_write]
  split <;> simp

/-! ### Several bytes -/

/-- What a write of consecutive bytes does to every address, when they fit the address space (R54, R55). -/
theorem Memory.known_writeBytes (bs : List Byte) (m : Memory) (base c : Nat) (h : base + bs.length ≤ Config.memSize) :
    (m.writeBytes base bs).known c =
      if base ≤ c ∧ c < base + bs.length then bs[c - base]? else m.known c := by
  induction bs generalizing m base with
  | nil => simp [Memory.writeBytes]
  | cons b bs ih =>
    simp only [List.length_cons] at h ⊢
    rw [Memory.writeBytes, ih _ _ (by omega), Memory.known_write]
    by_cases h0 : c = base
    · subst h0; simp; omega
    · by_cases h1 : base + 1 ≤ c ∧ c < base + 1 + bs.length
      · have e : c - base = (c - (base + 1)) + 1 := by omega
        rw [if_pos h1, if_pos (by omega), e, List.getElem?_cons_succ]
      · rw [if_neg h1, if_neg (by simp [h0]), if_neg (by omega)]

/-- What a write of consecutive bytes does to every read, when they fit the address space. -/
theorem Memory.read_writeBytes (bs : List Byte) (m : Memory) (base c : Nat) (h : base + bs.length ≤ Config.memSize) :
    (m.writeBytes base bs).read c =
      if base ≤ c ∧ c < base + bs.length then (bs[c - base]?).getD 0 else m.read c := by
  simp only [Memory.read, Memory.known_writeBytes bs m base c h]
  split <;> rename_i h1
  · have : c - base < bs.length := by omega
    simp [List.getElem?_eq_getElem this]
  · rfl

/-! ### The canonical form -/

theorem Memory.wf_nil : Memory.wf [] := by simp [Memory.wf]

theorem Memory.mem_insert {m : Memory} {a : Nat} {b : Byte} {e : Host.Cell} (h : e ∈ m.insert a b) :
    e = (a, b) ∨ e ∈ m := by
  induction m with
  | nil => simpa [Memory.insert] using h
  | cons c m ih =>
    simp only [Memory.insert] at h
    split at h
    · simpa using h
    · split at h
      · rcases List.mem_cons.mp h with h | h
        · exact .inl h
        · exact .inr (List.mem_cons_of_mem _ h)
      · rcases List.mem_cons.mp h with h | h
        · exact .inr (h ▸ List.mem_cons_self)
        · exact (ih h).imp id (List.mem_cons_of_mem _)

theorem Memory.mem_erase {m : Memory} {a : Nat} {e : Host.Cell} (h : e ∈ m.erase a) : e ∈ m := by
  induction m with
  | nil => simp [Memory.erase] at h
  | cons c m ih =>
    simp only [Memory.erase] at h
    split at h
    · exact List.mem_cons_of_mem _ (ih h)
    · rcases List.mem_cons.mp h with h | h
      · exact h ▸ List.mem_cons_self
      · exact List.mem_cons_of_mem _ (ih h)

theorem Memory.sorted_insert {m : Memory} (a : Nat) (b : Byte) (h : m.Pairwise (fun c d => c.1 < d.1)) :
    (m.insert a b).Pairwise (fun c d => c.1 < d.1) := by
  induction m with
  | nil => simp [Memory.insert]
  | cons c m ih =>
    obtain ⟨hc, hm⟩ := List.pairwise_cons.mp h
    simp only [Memory.insert]
    split <;> rename_i h1
    · refine List.pairwise_cons.mpr ⟨fun e he => ?_, h⟩
      rcases List.mem_cons.mp he with he | he
      · exact he ▸ h1
      · exact Nat.lt_trans h1 (hc e he)
    · split <;> rename_i h2
      · exact List.pairwise_cons.mpr ⟨fun e he => h2 ▸ hc e he, hm⟩
      · refine List.pairwise_cons.mpr ⟨fun e he => ?_, ih hm⟩
        rcases Memory.mem_insert he with he | he
        · subst he; show c.1 < a; omega
        · exact hc e he

theorem Memory.sorted_erase {m : Memory} (a : Nat) (h : m.Pairwise (fun c d => c.1 < d.1)) :
    (m.erase a).Pairwise (fun c d => c.1 < d.1) := by
  induction m with
  | nil => simp [Memory.erase]
  | cons c m ih =>
    obtain ⟨hc, hm⟩ := List.pairwise_cons.mp h
    simp only [Memory.erase]
    split
    · exact ih hm
    · exact List.pairwise_cons.mpr ⟨fun e he => hc e (Memory.mem_erase he), ih hm⟩

/-- A write keeps the canonical form. -/
theorem Memory.wf_write {m : Memory} (a : Nat) (b : Byte) (h : m.wf) : (m.write a b).wf := by
  unfold Memory.write
  split <;> rename_i h1
  · exact h
  · split <;> rename_i h2
    · exact ⟨Memory.sorted_erase a h.1, fun c hc => h.2 c (Memory.mem_erase hc)⟩
    · refine ⟨Memory.sorted_insert a b h.1, fun c hc => ?_⟩
      rcases Memory.mem_insert hc with hc | hc
      · subst hc; exact ⟨Nat.lt_of_not_le h1, h2⟩
      · exact h.2 c hc

/-- A write of several bytes keeps the canonical form. -/
theorem Memory.wf_writeBytes {m : Memory} (base : Nat) (bs : List Byte) (h : m.wf) : (m.writeBytes base bs).wf := by
  induction bs generalizing m base with
  | nil => exact h
  | cons b bs ih => exact ih _ (Memory.wf_write base b h)

/-- Memory at reset is in canonical form. -/
theorem State.reset_memWf : State.reset.mem.wf := Memory.wf_nil

/-! ### ACCESS_CHECK -/

/-- The check passes when every address is in the space; else it finds the lowest one that is not (R53, R54). -/
theorem accessCheck_eq (base n : Nat) :
    accessCheck base n =
      if n = 0 ∨ base + n ≤ Config.memSize then none else some (max base Config.memSize) := by
  induction n generalizing base with
  | zero => simp [accessCheck]
  | succ n ih =>
    have ih' := ih (base + 1)
    simp only [accessCheck] at ih' ⊢
    rw [List.range'_succ, List.find?_cons]
    by_cases h : Config.memSize ≤ base
    · simp [h]; omega
    · simp only [h, decide_false, Nat.succ_ne_zero, false_or]
      rw [ih']
      by_cases h1 : base + (n + 1) ≤ Config.memSize
      · rw [if_pos h1, if_pos (by omega)]
      · rw [if_neg h1]
        by_cases hn : n = 0
        · subst hn; omega
        · rw [if_neg (by omega)]
          congr 1; omega

end Sys2Proof.Machine
end

