-- ==== Sys2Proof/Laws/State.lean ====
section
/-! SUPPORT. One lemma per field per update of the state, so that no later proof unfolds a record update. -/

namespace Sys2Proof.Machine

variable (s : State)

/-! ### setI -/

@[simp] theorem State.setI_mem (w : Word) : (s.setI w).mem = s.mem := rfl
@[simp] theorem State.setI_v (w : Word) : (s.setI w).v = s.v := rfl
@[simp] theorem State.setI_i (w : Word) : (s.setI w).i = w := rfl
@[simp] theorem State.setI_pc (w : Word) : (s.setI w).pc = s.pc := rfl
@[simp] theorem State.setI_dt (w : Word) : (s.setI w).dt = s.dt := rfl
@[simp] theorem State.setI_st (w : Word) : (s.setI w).st = s.st := rfl
@[simp] theorem State.setI_stack (w : Word) : (s.setI w).stack = s.stack := rfl
@[simp] theorem State.setI_fb (w : Word) : (s.setI w).fb = s.fb := rfl
@[simp] theorem State.setI_key (w : Word) : (s.setI w).key = s.key := rfl
@[simp] theorem State.setI_fault (w : Word) : (s.setI w).fault = s.fault := rfl
@[simp] theorem State.setI_randIn (w : Word) : (s.setI w).randIn = s.randIn := rfl
@[simp] theorem State.setI_draws (w : Word) : (s.setI w).draws = s.draws := rfl
@[simp] theorem State.setI_reg (w : Word) (q : Reg) : (s.setI w).reg q = s.reg q := rfl
@[simp] theorem State.setI_byteAt (w : Word) (n : Nat) : (s.setI w).byteAt n = s.byteAt n := rfl

/-! ### setPc -/

@[simp] theorem State.setPc_mem (w : Word) : (s.setPc w).mem = s.mem := rfl
@[simp] theorem State.setPc_v (w : Word) : (s.setPc w).v = s.v := rfl
@[simp] theorem State.setPc_i (w : Word) : (s.setPc w).i = s.i := rfl
@[simp] theorem State.setPc_pc (w : Word) : (s.setPc w).pc = w := rfl
@[simp] theorem State.setPc_dt (w : Word) : (s.setPc w).dt = s.dt := rfl
@[simp] theorem State.setPc_st (w : Word) : (s.setPc w).st = s.st := rfl
@[simp] theorem State.setPc_stack (w : Word) : (s.setPc w).stack = s.stack := rfl
@[simp] theorem State.setPc_fb (w : Word) : (s.setPc w).fb = s.fb := rfl
@[simp] theorem State.setPc_key (w : Word) : (s.setPc w).key = s.key := rfl
@[simp] theorem State.setPc_fault (w : Word) : (s.setPc w).fault = s.fault := rfl
@[simp] theorem State.setPc_randIn (w : Word) : (s.setPc w).randIn = s.randIn := rfl
@[simp] theorem State.setPc_draws (w : Word) : (s.setPc w).draws = s.draws := rfl
@[simp] theorem State.setPc_reg (w : Word) (q : Reg) : (s.setPc w).reg q = s.reg q := rfl
@[simp] theorem State.setPc_byteAt (w : Word) (n : Nat) : (s.setPc w).byteAt n = s.byteAt n := rfl

/-! ### setDt -/

@[simp] theorem State.setDt_mem (b : Byte) : (s.setDt b).mem = s.mem := rfl
@[simp] theorem State.setDt_v (b : Byte) : (s.setDt b).v = s.v := rfl
@[simp] theorem State.setDt_i (b : Byte) : (s.setDt b).i = s.i := rfl
@[simp] theorem State.setDt_pc (b : Byte) : (s.setDt b).pc = s.pc := rfl
@[simp] theorem State.setDt_dt (b : Byte) : (s.setDt b).dt = b := rfl
@[simp] theorem State.setDt_st (b : Byte) : (s.setDt b).st = s.st := rfl
@[simp] theorem State.setDt_stack (b : Byte) : (s.setDt b).stack = s.stack := rfl
@[simp] theorem State.setDt_fb (b : Byte) : (s.setDt b).fb = s.fb := rfl
@[simp] theorem State.setDt_key (b : Byte) : (s.setDt b).key = s.key := rfl
@[simp] theorem State.setDt_fault (b : Byte) : (s.setDt b).fault = s.fault := rfl
@[simp] theorem State.setDt_randIn (b : Byte) : (s.setDt b).randIn = s.randIn := rfl
@[simp] theorem State.setDt_draws (b : Byte) : (s.setDt b).draws = s.draws := rfl
@[simp] theorem State.setDt_reg (b : Byte) (q : Reg) : (s.setDt b).reg q = s.reg q := rfl
@[simp] theorem State.setDt_byteAt (b : Byte) (n : Nat) : (s.setDt b).byteAt n = s.byteAt n := rfl

/-! ### setSt -/

@[simp] theorem State.setSt_mem (b : Byte) : (s.setSt b).mem = s.mem := rfl
@[simp] theorem State.setSt_v (b : Byte) : (s.setSt b).v = s.v := rfl
@[simp] theorem State.setSt_i (b : Byte) : (s.setSt b).i = s.i := rfl
@[simp] theorem State.setSt_pc (b : Byte) : (s.setSt b).pc = s.pc := rfl
@[simp] theorem State.setSt_dt (b : Byte) : (s.setSt b).dt = s.dt := rfl
@[simp] theorem State.setSt_st (b : Byte) : (s.setSt b).st = b := rfl
@[simp] theorem State.setSt_stack (b : Byte) : (s.setSt b).stack = s.stack := rfl
@[simp] theorem State.setSt_fb (b : Byte) : (s.setSt b).fb = s.fb := rfl
@[simp] theorem State.setSt_key (b : Byte) : (s.setSt b).key = s.key := rfl
@[simp] theorem State.setSt_fault (b : Byte) : (s.setSt b).fault = s.fault := rfl
@[simp] theorem State.setSt_randIn (b : Byte) : (s.setSt b).randIn = s.randIn := rfl
@[simp] theorem State.setSt_draws (b : Byte) : (s.setSt b).draws = s.draws := rfl
@[simp] theorem State.setSt_reg (b : Byte) (q : Reg) : (s.setSt b).reg q = s.reg q := rfl
@[simp] theorem State.setSt_byteAt (b : Byte) (n : Nat) : (s.setSt b).byteAt n = s.byteAt n := rfl

/-! ### setMem -/

@[simp] theorem State.setMem_mem (m : Memory) : (s.setMem m).mem = m := rfl
@[simp] theorem State.setMem_v (m : Memory) : (s.setMem m).v = s.v := rfl
@[simp] theorem State.setMem_i (m : Memory) : (s.setMem m).i = s.i := rfl
@[simp] theorem State.setMem_pc (m : Memory) : (s.setMem m).pc = s.pc := rfl
@[simp] theorem State.setMem_dt (m : Memory) : (s.setMem m).dt = s.dt := rfl
@[simp] theorem State.setMem_st (m : Memory) : (s.setMem m).st = s.st := rfl
@[simp] theorem State.setMem_stack (m : Memory) : (s.setMem m).stack = s.stack := rfl
@[simp] theorem State.setMem_fb (m : Memory) : (s.setMem m).fb = s.fb := rfl
@[simp] theorem State.setMem_key (m : Memory) : (s.setMem m).key = s.key := rfl
@[simp] theorem State.setMem_fault (m : Memory) : (s.setMem m).fault = s.fault := rfl
@[simp] theorem State.setMem_randIn (m : Memory) : (s.setMem m).randIn = s.randIn := rfl
@[simp] theorem State.setMem_draws (m : Memory) : (s.setMem m).draws = s.draws := rfl
@[simp] theorem State.setMem_reg (m : Memory) (q : Reg) : (s.setMem m).reg q = s.reg q := rfl
@[simp] theorem State.setMem_byteAt (m : Memory) (n : Nat) : (s.setMem m).byteAt n = m.read n := rfl

/-! ### setFb -/

@[simp] theorem State.setFb_mem (f : Framebuffer) : (s.setFb f).mem = s.mem := rfl
@[simp] theorem State.setFb_v (f : Framebuffer) : (s.setFb f).v = s.v := rfl
@[simp] theorem State.setFb_i (f : Framebuffer) : (s.setFb f).i = s.i := rfl
@[simp] theorem State.setFb_pc (f : Framebuffer) : (s.setFb f).pc = s.pc := rfl
@[simp] theorem State.setFb_dt (f : Framebuffer) : (s.setFb f).dt = s.dt := rfl
@[simp] theorem State.setFb_st (f : Framebuffer) : (s.setFb f).st = s.st := rfl
@[simp] theorem State.setFb_stack (f : Framebuffer) : (s.setFb f).stack = s.stack := rfl
@[simp] theorem State.setFb_fb (f : Framebuffer) : (s.setFb f).fb = f := rfl
@[simp] theorem State.setFb_key (f : Framebuffer) : (s.setFb f).key = s.key := rfl
@[simp] theorem State.setFb_fault (f : Framebuffer) : (s.setFb f).fault = s.fault := rfl
@[simp] theorem State.setFb_randIn (f : Framebuffer) : (s.setFb f).randIn = s.randIn := rfl
@[simp] theorem State.setFb_draws (f : Framebuffer) : (s.setFb f).draws = s.draws := rfl
@[simp] theorem State.setFb_reg (f : Framebuffer) (q : Reg) : (s.setFb f).reg q = s.reg q := rfl
@[simp] theorem State.setFb_byteAt (f : Framebuffer) (n : Nat) : (s.setFb f).byteAt n = s.byteAt n := rfl

/-! ### setStack -/

@[simp] theorem State.setStack_mem (k : List Word) : (s.setStack k).mem = s.mem := rfl
@[simp] theorem State.setStack_v (k : List Word) : (s.setStack k).v = s.v := rfl
@[simp] theorem State.setStack_i (k : List Word) : (s.setStack k).i = s.i := rfl
@[simp] theorem State.setStack_pc (k : List Word) : (s.setStack k).pc = s.pc := rfl
@[simp] theorem State.setStack_dt (k : List Word) : (s.setStack k).dt = s.dt := rfl
@[simp] theorem State.setStack_st (k : List Word) : (s.setStack k).st = s.st := rfl
@[simp] theorem State.setStack_stack (k : List Word) : (s.setStack k).stack = k := rfl
@[simp] theorem State.setStack_fb (k : List Word) : (s.setStack k).fb = s.fb := rfl
@[simp] theorem State.setStack_key (k : List Word) : (s.setStack k).key = s.key := rfl
@[simp] theorem State.setStack_fault (k : List Word) : (s.setStack k).fault = s.fault := rfl
@[simp] theorem State.setStack_randIn (k : List Word) : (s.setStack k).randIn = s.randIn := rfl
@[simp] theorem State.setStack_draws (k : List Word) : (s.setStack k).draws = s.draws := rfl
@[simp] theorem State.setStack_reg (k : List Word) (q : Reg) : (s.setStack k).reg q = s.reg q := rfl
@[simp] theorem State.setStack_byteAt (k : List Word) (n : Nat) : (s.setStack k).byteAt n = s.byteAt n := rfl

/-! ### setKeys -/

@[simp] theorem State.setKeys_mem (k : BitVec 16) : (s.setKeys k).mem = s.mem := rfl
@[simp] theorem State.setKeys_v (k : BitVec 16) : (s.setKeys k).v = s.v := rfl
@[simp] theorem State.setKeys_i (k : BitVec 16) : (s.setKeys k).i = s.i := rfl
@[simp] theorem State.setKeys_pc (k : BitVec 16) : (s.setKeys k).pc = s.pc := rfl
@[simp] theorem State.setKeys_dt (k : BitVec 16) : (s.setKeys k).dt = s.dt := rfl
@[simp] theorem State.setKeys_st (k : BitVec 16) : (s.setKeys k).st = s.st := rfl
@[simp] theorem State.setKeys_stack (k : BitVec 16) : (s.setKeys k).stack = s.stack := rfl
@[simp] theorem State.setKeys_fb (k : BitVec 16) : (s.setKeys k).fb = s.fb := rfl
@[simp] theorem State.setKeys_key (k : BitVec 16) : (s.setKeys k).key = k := rfl
@[simp] theorem State.setKeys_fault (k : BitVec 16) : (s.setKeys k).fault = s.fault := rfl
@[simp] theorem State.setKeys_randIn (k : BitVec 16) : (s.setKeys k).randIn = s.randIn := rfl
@[simp] theorem State.setKeys_draws (k : BitVec 16) : (s.setKeys k).draws = s.draws := rfl
@[simp] theorem State.setKeys_reg (k : BitVec 16) (q : Reg) : (s.setKeys k).reg q = s.reg q := rfl
@[simp] theorem State.setKeys_byteAt (k : BitVec 16) (n : Nat) : (s.setKeys k).byteAt n = s.byteAt n := rfl

/-! ### presentRand -/

@[simp] theorem State.presentRand_mem (r : Byte) : (s.presentRand r).mem = s.mem := rfl
@[simp] theorem State.presentRand_v (r : Byte) : (s.presentRand r).v = s.v := rfl
@[simp] theorem State.presentRand_i (r : Byte) : (s.presentRand r).i = s.i := rfl
@[simp] theorem State.presentRand_pc (r : Byte) : (s.presentRand r).pc = s.pc := rfl
@[simp] theorem State.presentRand_dt (r : Byte) : (s.presentRand r).dt = s.dt := rfl
@[simp] theorem State.presentRand_st (r : Byte) : (s.presentRand r).st = s.st := rfl
@[simp] theorem State.presentRand_stack (r : Byte) : (s.presentRand r).stack = s.stack := rfl
@[simp] theorem State.presentRand_fb (r : Byte) : (s.presentRand r).fb = s.fb := rfl
@[simp] theorem State.presentRand_key (r : Byte) : (s.presentRand r).key = s.key := rfl
@[simp] theorem State.presentRand_fault (r : Byte) : (s.presentRand r).fault = s.fault := rfl
@[simp] theorem State.presentRand_randIn (r : Byte) : (s.presentRand r).randIn = [r] := rfl
@[simp] theorem State.presentRand_draws (r : Byte) : (s.presentRand r).draws = s.draws := rfl
@[simp] theorem State.presentRand_reg (r : Byte) (q : Reg) : (s.presentRand r).reg q = s.reg q := rfl
@[simp] theorem State.presentRand_byteAt (r : Byte) (n : Nat) : (s.presentRand r).byteAt n = s.byteAt n := rfl

/-! ### setReg -/

@[simp] theorem State.setReg_mem (r : Reg) (b : Byte) : (s.setReg r b).mem = s.mem := rfl
@[simp] theorem State.setReg_v (r : Reg) (b : Byte) : (s.setReg r b).v = s.v.set r b := rfl
@[simp] theorem State.setReg_i (r : Reg) (b : Byte) : (s.setReg r b).i = s.i := rfl
@[simp] theorem State.setReg_pc (r : Reg) (b : Byte) : (s.setReg r b).pc = s.pc := rfl
@[simp] theorem State.setReg_dt (r : Reg) (b : Byte) : (s.setReg r b).dt = s.dt := rfl
@[simp] theorem State.setReg_st (r : Reg) (b : Byte) : (s.setReg r b).st = s.st := rfl
@[simp] theorem State.setReg_stack (r : Reg) (b : Byte) : (s.setReg r b).stack = s.stack := rfl
@[simp] theorem State.setReg_fb (r : Reg) (b : Byte) : (s.setReg r b).fb = s.fb := rfl
@[simp] theorem State.setReg_key (r : Reg) (b : Byte) : (s.setReg r b).key = s.key := rfl
@[simp] theorem State.setReg_fault (r : Reg) (b : Byte) : (s.setReg r b).fault = s.fault := rfl
@[simp] theorem State.setReg_randIn (r : Reg) (b : Byte) : (s.setReg r b).randIn = s.randIn := rfl
@[simp] theorem State.setReg_draws (r : Reg) (b : Byte) : (s.setReg r b).draws = s.draws := rfl
@[simp] theorem State.setReg_byteAt (r : Reg) (b : Byte) (n : Nat) : (s.setReg r b).byteAt n = s.byteAt n := rfl

/-- Reading a register after a write of one: the written one holds the value, each other its own (R21). -/
theorem State.setReg_reg (r : Reg) (b : Byte) (q : Reg) : (s.setReg r b).reg q = if q = r then b else s.reg q := by
  simp only [State.setReg, State.reg, Vector.getElem_set, Fin.ext_iff, eq_comm (a := q.val)]

@[simp] theorem State.setReg_reg_same (r : Reg) (b : Byte) : (s.setReg r b).reg r = b := by
  simp [State.setReg_reg]

@[simp] theorem State.setReg_reg_ne (b : Byte) {r q : Reg} (h : q ≠ r) : (s.setReg r b).reg q = s.reg q := by
  simp [State.setReg_reg, h]

/-! ### advance -/

@[simp] theorem State.advance_mem : s.advance.mem = s.mem := rfl
@[simp] theorem State.advance_v : s.advance.v = s.v := rfl
@[simp] theorem State.advance_i : s.advance.i = s.i := rfl
@[simp] theorem State.advance_pc : s.advance.pc = s.pc + 2 := rfl
@[simp] theorem State.advance_dt : s.advance.dt = s.dt := rfl
@[simp] theorem State.advance_st : s.advance.st = s.st := rfl
@[simp] theorem State.advance_stack : s.advance.stack = s.stack := rfl
@[simp] theorem State.advance_fb : s.advance.fb = s.fb := rfl
@[simp] theorem State.advance_key : s.advance.key = s.key := rfl
@[simp] theorem State.advance_fault : s.advance.fault = s.fault := rfl
@[simp] theorem State.advance_randIn : s.advance.randIn = s.randIn := rfl
@[simp] theorem State.advance_draws : s.advance.draws = s.draws := rfl
@[simp] theorem State.advance_reg (q : Reg) : s.advance.reg q = s.reg q := rfl
@[simp] theorem State.advance_byteAt (n : Nat) : s.advance.byteAt n = s.byteAt n := rfl

/-! ### withFault -/

@[simp] theorem State.withFault_mem (c : FaultCode) (w : Word) : (s.withFault c w).mem = s.mem := rfl
@[simp] theorem State.withFault_v (c : FaultCode) (w : Word) : (s.withFault c w).v = s.v := rfl
@[simp] theorem State.withFault_i (c : FaultCode) (w : Word) : (s.withFault c w).i = s.i := rfl
@[simp] theorem State.withFault_pc (c : FaultCode) (w : Word) : (s.withFault c w).pc = s.pc := rfl
@[simp] theorem State.withFault_dt (c : FaultCode) (w : Word) : (s.withFault c w).dt = s.dt := rfl
@[simp] theorem State.withFault_st (c : FaultCode) (w : Word) : (s.withFault c w).st = s.st := rfl
@[simp] theorem State.withFault_stack (c : FaultCode) (w : Word) : (s.withFault c w).stack = s.stack := rfl
@[simp] theorem State.withFault_fb (c : FaultCode) (w : Word) : (s.withFault c w).fb = s.fb := rfl
@[simp] theorem State.withFault_key (c : FaultCode) (w : Word) : (s.withFault c w).key = s.key := rfl
@[simp] theorem State.withFault_fault (c : FaultCode) (w : Word) : (s.withFault c w).fault = ⟨c, s.pc, w⟩ := rfl
@[simp] theorem State.withFault_randIn (c : FaultCode) (w : Word) : (s.withFault c w).randIn = s.randIn := rfl
@[simp] theorem State.withFault_draws (c : FaultCode) (w : Word) : (s.withFault c w).draws = s.draws := rfl
@[simp] theorem State.withFault_reg (c : FaultCode) (w : Word) (q : Reg) : (s.withFault c w).reg q = s.reg q := rfl
@[simp] theorem State.withFault_byteAt (c : FaultCode) (w : Word) (n : Nat) :
    (s.withFault c w).byteAt n = s.byteAt n := rfl

/-! ### setFlag and setResultFlag -/

@[simp] theorem State.setFlag_mem (f : Bool) : (s.setFlag f).mem = s.mem := rfl
@[simp] theorem State.setResultFlag_mem (x : Reg) (b : Byte) (f : Bool) :
    (s.setResultFlag x b f).mem = s.mem := rfl
@[simp] theorem State.setFlag_i (f : Bool) : (s.setFlag f).i = s.i := rfl
@[simp] theorem State.setResultFlag_i (x : Reg) (b : Byte) (f : Bool) :
    (s.setResultFlag x b f).i = s.i := rfl
@[simp] theorem State.setFlag_pc (f : Bool) : (s.setFlag f).pc = s.pc := rfl
@[simp] theorem State.setResultFlag_pc (x : Reg) (b : Byte) (f : Bool) :
    (s.setResultFlag x b f).pc = s.pc := rfl
@[simp] theorem State.setFlag_dt (f : Bool) : (s.setFlag f).dt = s.dt := rfl
@[simp] theorem State.setResultFlag_dt (x : Reg) (b : Byte) (f : Bool) :
    (s.setResultFlag x b f).dt = s.dt := rfl
@[simp] theorem State.setFlag_st (f : Bool) : (s.setFlag f).st = s.st := rfl
@[simp] theorem State.setResultFlag_st (x : Reg) (b : Byte) (f : Bool) :
    (s.setResultFlag x b f).st = s.st := rfl
@[simp] theorem State.setFlag_stack (f : Bool) : (s.setFlag f).stack = s.stack := rfl
@[simp] theorem State.setResultFlag_stack (x : Reg) (b : Byte) (f : Bool) :
    (s.setResultFlag x b f).stack = s.stack := rfl
@[simp] theorem State.setFlag_fb (f : Bool) : (s.setFlag f).fb = s.fb := rfl
@[simp] theorem State.setResultFlag_fb (x : Reg) (b : Byte) (f : Bool) :
    (s.setResultFlag x b f).fb = s.fb := rfl
@[simp] theorem State.setFlag_key (f : Bool) : (s.setFlag f).key = s.key := rfl
@[simp] theorem State.setResultFlag_key (x : Reg) (b : Byte) (f : Bool) :
    (s.setResultFlag x b f).key = s.key := rfl
@[simp] theorem State.setFlag_fault (f : Bool) : (s.setFlag f).fault = s.fault := rfl
@[simp] theorem State.setResultFlag_fault (x : Reg) (b : Byte) (f : Bool) :
    (s.setResultFlag x b f).fault = s.fault := rfl
@[simp] theorem State.setFlag_randIn (f : Bool) : (s.setFlag f).randIn = s.randIn := rfl
@[simp] theorem State.setResultFlag_randIn (x : Reg) (b : Byte) (f : Bool) :
    (s.setResultFlag x b f).randIn = s.randIn := rfl
@[simp] theorem State.setFlag_draws (f : Bool) : (s.setFlag f).draws = s.draws := rfl
@[simp] theorem State.setResultFlag_draws (x : Reg) (b : Byte) (f : Bool) :
    (s.setResultFlag x b f).draws = s.draws := rfl
@[simp] theorem State.setFlag_byteAt (f : Bool) (n : Nat) : (s.setFlag f).byteAt n = s.byteAt n := rfl
@[simp] theorem State.setResultFlag_byteAt (x : Reg) (b : Byte) (f : Bool) (n : Nat) :
    (s.setResultFlag x b f).byteAt n = s.byteAt n := rfl

/-- VF holds the flag, every other register its own value. -/
theorem State.setFlag_reg (f : Bool) (q : Reg) : (s.setFlag f).reg q = if q = vF then flagByte f else s.reg q :=
  s.setReg_reg vF (flagByte f) q

/-- VF holds the flag, also when it is the destination; else the destination holds the result (R120). -/
theorem State.setResultFlag_reg (x : Reg) (b : Byte) (f : Bool) (q : Reg) :
    (s.setResultFlag x b f).reg q = if q = vF then flagByte f else if q = x then b else s.reg q := by
  simp only [State.setResultFlag, State.setFlag_reg, State.setReg_reg]

/-! ### loadRegs -/

@[simp] theorem State.loadRegs_mem (a : Nat) (x : Reg) : (s.loadRegs a x).mem = s.mem := rfl
@[simp] theorem State.loadRegs_i (a : Nat) (x : Reg) : (s.loadRegs a x).i = s.i := rfl
@[simp] theorem State.loadRegs_pc (a : Nat) (x : Reg) : (s.loadRegs a x).pc = s.pc := rfl
@[simp] theorem State.loadRegs_dt (a : Nat) (x : Reg) : (s.loadRegs a x).dt = s.dt := rfl
@[simp] theorem State.loadRegs_st (a : Nat) (x : Reg) : (s.loadRegs a x).st = s.st := rfl
@[simp] theorem State.loadRegs_stack (a : Nat) (x : Reg) : (s.loadRegs a x).stack = s.stack := rfl
@[simp] theorem State.loadRegs_fb (a : Nat) (x : Reg) : (s.loadRegs a x).fb = s.fb := rfl
@[simp] theorem State.loadRegs_key (a : Nat) (x : Reg) : (s.loadRegs a x).key = s.key := rfl
@[simp] theorem State.loadRegs_fault (a : Nat) (x : Reg) : (s.loadRegs a x).fault = s.fault := rfl
@[simp] theorem State.loadRegs_randIn (a : Nat) (x : Reg) : (s.loadRegs a x).randIn = s.randIn := rfl
@[simp] theorem State.loadRegs_draws (a : Nat) (x : Reg) : (s.loadRegs a x).draws = s.draws := rfl
@[simp] theorem State.loadRegs_byteAt (a : Nat) (x : Reg) (n : Nat) : (s.loadRegs a x).byteAt n = s.byteAt n := rfl

/-- Registers up to x hold the bytes of memory, the others their own values (R145). -/
theorem State.loadRegs_reg (a : Nat) (x q : Reg) :
    (s.loadRegs a x).reg q = if q ≤ x then s.byteAt (a + q.val) else s.reg q := by
  simp [State.loadRegs, State.reg]

/-! ### skipIf -/

@[simp] theorem State.skipIf_mem (b : Bool) : (s.skipIf b).mem = s.mem := by cases b <;> rfl
@[simp] theorem State.skipIf_v (b : Bool) : (s.skipIf b).v = s.v := by cases b <;> rfl
@[simp] theorem State.skipIf_i (b : Bool) : (s.skipIf b).i = s.i := by cases b <;> rfl
@[simp] theorem State.skipIf_dt (b : Bool) : (s.skipIf b).dt = s.dt := by cases b <;> rfl
@[simp] theorem State.skipIf_st (b : Bool) : (s.skipIf b).st = s.st := by cases b <;> rfl
@[simp] theorem State.skipIf_stack (b : Bool) : (s.skipIf b).stack = s.stack := by cases b <;> rfl
@[simp] theorem State.skipIf_fb (b : Bool) : (s.skipIf b).fb = s.fb := by cases b <;> rfl
@[simp] theorem State.skipIf_key (b : Bool) : (s.skipIf b).key = s.key := by cases b <;> rfl
@[simp] theorem State.skipIf_fault (b : Bool) : (s.skipIf b).fault = s.fault := by cases b <;> rfl
@[simp] theorem State.skipIf_randIn (b : Bool) : (s.skipIf b).randIn = s.randIn := by cases b <;> rfl
@[simp] theorem State.skipIf_draws (b : Bool) : (s.skipIf b).draws = s.draws := by cases b <;> rfl
@[simp] theorem State.skipIf_reg (b : Bool) (q : Reg) : (s.skipIf b).reg q = s.reg q := by cases b <;> rfl
@[simp] theorem State.skipIf_byteAt (b : Bool) (n : Nat) : (s.skipIf b).byteAt n = s.byteAt n := by cases b <;> rfl
@[simp] theorem State.skipIf_pc (b : Bool) : (s.skipIf b).pc = if b then s.pc + 2 else s.pc := by cases b <;> rfl

/-! ### consumeRand -/

@[simp] theorem State.consumeRand_mem : s.consumeRand.mem = s.mem := by unfold State.consumeRand; split <;> rfl
@[simp] theorem State.consumeRand_v : s.consumeRand.v = s.v := by unfold State.consumeRand; split <;> rfl
@[simp] theorem State.consumeRand_i : s.consumeRand.i = s.i := by unfold State.consumeRand; split <;> rfl
@[simp] theorem State.consumeRand_pc : s.consumeRand.pc = s.pc := by unfold State.consumeRand; split <;> rfl
@[simp] theorem State.consumeRand_dt : s.consumeRand.dt = s.dt := by unfold State.consumeRand; split <;> rfl
@[simp] theorem State.consumeRand_st : s.consumeRand.st = s.st := by unfold State.consumeRand; split <;> rfl
@[simp] theorem State.consumeRand_stack : s.consumeRand.stack = s.stack := by unfold State.consumeRand; split <;> rfl
@[simp] theorem State.consumeRand_fb : s.consumeRand.fb = s.fb := by unfold State.consumeRand; split <;> rfl
@[simp] theorem State.consumeRand_key : s.consumeRand.key = s.key := by unfold State.consumeRand; split <;> rfl
@[simp] theorem State.consumeRand_fault : s.consumeRand.fault = s.fault := by unfold State.consumeRand; split <;> rfl
@[simp] theorem State.consumeRand_reg (q : Reg) : s.consumeRand.reg q = s.reg q := by
  unfold State.consumeRand; split <;> rfl
@[simp] theorem State.consumeRand_byteAt (n : Nat) : s.consumeRand.byteAt n = s.byteAt n := by
  unfold State.consumeRand; split <;> rfl

/-- With a named draw first in the list, that draw is the value and leaves the list. -/
theorem State.rand_named {r : Byte} {rs : List Byte} (h : s.randIn = r :: rs) :
    s.rand = r ∧ s.consumeRand = { s with randIn := rs } := by
  simp [State.rand, State.consumeRand, h]

/-- With none named, the draw is free and the counter moves on. -/
theorem State.rand_free (h : s.randIn = []) :
    s.rand = Config.freeRand s.draws ∧ s.consumeRand = { s with draws := s.draws + 1 } := by
  simp [State.rand, State.consumeRand, h]

end Sys2Proof.Machine
end

