-- ==== Sys2Proof/Laws/Ops.lean ====
section
/-! SUPPORT. What each shared operation that may raise a fault does: when it raises, and what it goes on to. -/

namespace Sys2Proof.Machine

/-! ### Words as numbers -/

/-- PC + 2 as a number, below the wrap (R25, R39). -/
theorem toNat_add_two {w : Word} (h : w.toNat < 65534) : (w + 2).toNat = w.toNat + 2 := by
  rw [BitVec.toNat_add]; show (w.toNat + 2) % 65536 = _; omega

/-- Fx0A comes back to the fetch address (R152). -/
theorem add_two_sub_two (w : Word) : w + 2 - 2 = w := by simp

/-! ### Checked accesses -/

/-- All addresses in the space: the instruction goes on. -/
theorem withAccess_ok {base n : Nat} (s t : State) (h : n = 0 ∨ base + n ≤ Config.memSize) :
    withAccess base n s t = .next t := by
  simp [withAccess, accessCheck_eq, h]

/-- An address beyond the space: MemoryOutOfRange with the lowest one (R54, R164). -/
theorem withAccess_fault {base n : Nat} (s t : State) (hn : n ≠ 0) (h : Config.memSize < base + n) :
    withAccess base n s t = .next (s.withFault .memoryOutOfRange (BitVec.ofNat 16 (max base Config.memSize))) := by
  simp [withAccess, accessCheck_eq, hn, Nat.not_le.mpr h, raise]

/-- A checked access answers a next state: the one it goes on to, or the fault entry. -/
theorem withAccess_cases (base n : Nat) (s t : State) :
    ((n = 0 ∨ base + n ≤ Config.memSize) ∧ withAccess base n s t = .next t) ∨
    ((n ≠ 0 ∧ Config.memSize < base + n) ∧ withAccess base n s t =
      .next (s.withFault .memoryOutOfRange (BitVec.ofNat 16 (max base Config.memSize)))) := by
  by_cases h : n = 0 ∨ base + n ≤ Config.memSize
  · exact .inl ⟨h, withAccess_ok s t h⟩
  · rw [not_or, Nat.not_le] at h
    exact .inr ⟨h, withAccess_fault s t h.1 h.2⟩

/-! ### Checked key indices -/

/-- A key of the latch: the instruction goes on. -/
theorem withKeyCheck_ok {k : Byte} (s t : State) (h : k.toNat < 16) : withKeyCheck k s t = .next t := by
  have : ¬ Config.numKeys ≤ k.toNat := Nat.not_le.mpr h
  simp [withKeyCheck, this]

/-- An index above 0xF: KeyIndexOutOfRange with the index (R165). -/
theorem withKeyCheck_fault {k : Byte} (s t : State) (h : 16 ≤ k.toNat) :
    withKeyCheck k s t = .next (s.withFault .keyIndexOutOfRange (BitVec.ofNat 16 k.toNat)) := by
  have : Config.numKeys ≤ k.toNat := h
  simp [withKeyCheck, this, raise]

/-- A checked key index answers a next state: the one it goes on to, or the fault entry. -/
theorem withKeyCheck_cases (k : Byte) (s t : State) :
    (k.toNat < 16 ∧ withKeyCheck k s t = .next t) ∨
    (16 ≤ k.toNat ∧ withKeyCheck k s t =
      .next (s.withFault .keyIndexOutOfRange (BitVec.ofNat 16 k.toNat))) :=
  (Nat.lt_or_ge k.toNat 16).imp (fun h => ⟨h, withKeyCheck_ok s t h⟩) (fun h => ⟨h, withKeyCheck_fault s t h⟩)

/-! ### The call stack -/

/-- Room on the stack: the word is pushed (R28). -/
theorem withPush_ok {s : State} (w : Word) (t : State) (h : s.stack.length < 16) :
    withPush w s t = .next (t.setStack (w :: s.stack)) := by
  have : ¬ Config.stackDepth ≤ s.stack.length := Nat.not_le.mpr h
  simp [withPush, this]

/-- A full stack: StackOverflow (R162). -/
theorem withPush_fault {s : State} (w : Word) (t : State) (h : 16 ≤ s.stack.length) :
    withPush w s t = .next (s.withFault .stackOverflow 0) := by
  have : Config.stackDepth ≤ s.stack.length := h
  simp [withPush, this, raise]

/-- A push answers a next state: the word on top, or the fault entry. -/
theorem withPush_cases (w : Word) (s t : State) :
    (s.stack.length < 16 ∧ withPush w s t = .next (t.setStack (w :: s.stack))) ∨
    (16 ≤ s.stack.length ∧ withPush w s t = .next (s.withFault .stackOverflow 0)) :=
  (Nat.lt_or_ge s.stack.length 16).imp (fun h => ⟨h, withPush_ok w t h⟩) (fun h => ⟨h, withPush_fault w t h⟩)

/-- A pop answers a next state: the top entry in PC, or the fault entry (R28, R163). -/
theorem withPop_cases (s : State) :
    (∃ w rest, s.stack = w :: rest ∧ withPop s = .next ((s.setStack rest).setPc w)) ∨
    (s.stack = [] ∧ withPop s = .next (s.withFault .stackUnderflow 0)) := by
  cases h : s.stack with
  | nil => exact .inr ⟨rfl, by simp [withPop, h, raise]⟩
  | cons w rest => exact .inl ⟨w, rest, rfl, by simp [withPop, h]⟩

end Sys2Proof.Machine
end

