-- ==== Sys2Proof/Laws/Exec.lean ====
section
/-! SUPPORT. What exec can do, said once for every instruction: it answers the fault entry when `raises` names a fault, and else
the state `effect` gives. Proofs over all instructions cite `exec_eq` and split on `effect`. -/

namespace Sys2Proof.Machine

/-- The fault of an access of `n` bytes from I, if one is above 0xFFF. -/
def rangeFault (s : State) (n : Nat) : Option (FaultCode × Word) :=
  if n = 0 ∨ s.base + n ≤ Config.memSize then none
  else some (.memoryOutOfRange, BitVec.ofNat 16 (max s.base Config.memSize))

/-- The fault of a key index above 0xF. -/
def keyFault (k : Byte) : Option (FaultCode × Word) :=
  if k.toNat < 16 then none else some (.keyIndexOutOfRange, BitVec.ofNat 16 k.toNat)

/-- The fault an instruction raises, if it raises one. -/
def raises (i : Instr) (s : State) : Option (FaultCode × Word) :=
  match i with
  | .cls => none
  | .ret => if s.stack = [] then some (.stackUnderflow, 0) else none
  | .jpNnn _ => none
  | .callNnn _ => if 16 ≤ s.stack.length then some (.stackOverflow, 0) else none
  | .seVxKk _ _ => none
  | .sneVxKk _ _ => none
  | .seVxVy _ _ => none
  | .ldVxKk _ _ => none
  | .addVxKk _ _ => none
  | .ldVxVy _ _ => none
  | .orVxVy _ _ => none
  | .andVxVy _ _ => none
  | .xorVxVy _ _ => none
  | .addVxVy _ _ => none
  | .subVxVy _ _ => none
  | .shrVx _ => none
  | .subnVxVy _ _ => none
  | .shlVx _ => none
  | .sneVxVy _ _ => none
  | .ldINnn _ => none
  | .jpV0Nnn _ => none
  | .rndVxKk _ _ => none
  | .drwVxVyN _ _ n => rangeFault s n
  | .skpVx x => keyFault (s.reg x)
  | .sknpVx x => keyFault (s.reg x)
  | .ldVxDt _ => none
  | .ldVxK x => keyFault (s.reg x)
  | .ldDtVx _ => none
  | .ldStVx _ => none
  | .addIVx _ => none
  | .ldFVx _ => none
  | .ldBVx _ => rangeFault s 3
  | .ldMemVx x => rangeFault s (rangeCount x)
  | .ldVxMem x => rangeFault s (rangeCount x)

/-- The state an instruction that raises no fault leads to. -/
def effect (i : Instr) (s : State) : State :=
  match i with
  | .cls => s.advance.setFb Framebuffer.blank
  | .ret => (s.setStack s.stack.tail).setPc (s.stack.headD 0)
  | .jpNnn nnn => s.setPc nnn
  | .callNnn nnn => (s.setPc nnn).setStack ((s.pc + 2) :: s.stack)
  | .seVxKk x kk => s.advance.skipIf (decide (s.reg x = kk))
  | .sneVxKk x kk => s.advance.skipIf (decide (s.reg x ≠ kk))
  | .seVxVy x y => s.advance.skipIf (decide (s.reg x = s.reg y))
  | .ldVxKk x kk => s.advance.setReg x kk
  | .addVxKk x kk => s.advance.setReg x (addResult (s.reg x) kk)
  | .ldVxVy x y => s.advance.setReg x (s.reg y)
  | .orVxVy x y => s.advance.setReg x (s.reg x ||| s.reg y)
  | .andVxVy x y => s.advance.setReg x (s.reg x &&& s.reg y)
  | .xorVxVy x y => s.advance.setReg x (s.reg x ^^^ s.reg y)
  | .addVxVy x y => s.advance.setResultFlag x (addResult (s.reg x) (s.reg y)) (addCarry (s.reg x) (s.reg y))
  | .subVxVy x y => s.advance.setResultFlag x (subResult (s.reg x) (s.reg y)) (subNoBorrow (s.reg x) (s.reg y))
  | .shrVx x => s.advance.setResultFlag x (shrResult (s.reg x)) (shrFlag (s.reg x))
  | .subnVxVy x y => s.advance.setResultFlag x (subResult (s.reg y) (s.reg x)) (subnFlag (s.reg x) (s.reg y))
  | .shlVx x => s.advance.setResultFlag x (shlResult (s.reg x)) (shlFlag (s.reg x))
  | .sneVxVy x y => s.advance.skipIf (decide (s.reg x ≠ s.reg y))
  | .ldINnn nnn => s.advance.setI nnn
  | .jpV0Nnn nnn => s.setPc (indexedTarget nnn (s.reg v0))
  | .rndVxKk x kk => s.advance.consumeRand.setReg x (s.rand &&& kk)
  | .drwVxVyN x y n => drawEffect x y n s
  | .skpVx x => s.advance.skipIf (s.keyDown (s.reg x))
  | .sknpVx x => s.advance.skipIf (!s.keyDown (s.reg x))
  | .ldVxDt x => s.advance.setReg x s.dt
  | .ldVxK x => if s.keyDown (s.reg x) then s.advance else s.advance.setPc (s.advance.pc - 2)
  | .ldDtVx x => s.advance.setDt (s.reg x)
  | .ldStVx x => s.advance.setSt (s.reg x)
  | .addIVx x => (s.advance.setI (indexSum s.i (s.reg x))).setFlag (indexFlag s.i (s.reg x))
  | .ldFVx x => s.advance.setI (glyphAddress (s.reg x))
  | .ldBVx x => s.advance.setMem (s.mem.writeBytes s.base (bcdDigits (s.reg x)))
  | .ldMemVx x => s.advance.setMem (s.mem.writeBytes s.base (s.regsUpTo x))
  | .ldVxMem x => s.advance.loadRegs s.base x

theorem withAccess_eq (s t : State) (n : Nat) :
    withAccess s.base n s t = match rangeFault s n with
      | some (c, w) => .next (s.withFault c w)
      | none => .next t := by
  rcases withAccess_cases s.base n s t with ⟨h, e⟩ | ⟨h, e⟩
  · rw [e, rangeFault, if_pos h]
  · rw [e, rangeFault, if_neg (by omega)]

theorem withKeyCheck_eq (k : Byte) (s t : State) :
    withKeyCheck k s t = match keyFault k with
      | some (c, w) => .next (s.withFault c w)
      | none => .next t := by
  rcases withKeyCheck_cases k s t with ⟨h, e⟩ | ⟨h, e⟩
  · rw [e, keyFault, if_pos h]
  · rw [e, keyFault, if_neg (by omega)]

/-- What exec does, for every instruction and every state. -/
theorem exec_eq (i : Instr) (s : State) :
    exec i s = match raises i s with
      | some (c, w) => .next (s.withFault c w)
      | none => .next (effect i s) := by
  cases i
  case ret =>
    rcases withPop_cases s with ⟨w, rest, h, e⟩ | ⟨h, e⟩
    · simp only [exec, execRet, raises, effect, e, h]; rfl
    · simp only [exec, execRet, raises, e, h]; rfl
  case callNnn a =>
    rcases withPush_cases s.advance.pc s (s.setPc a) with ⟨h, e⟩ | ⟨h, e⟩
    · simp only [exec, execCallNnn, raises, effect, e, if_neg (Nat.not_le.mpr h)]; rfl
    · simp only [exec, execCallNnn, raises, e, if_pos h]
  case drwVxVyN x y n => exact withAccess_eq s _ n
  case ldBVx x => exact withAccess_eq s _ 3
  case ldMemVx x => exact withAccess_eq s _ (rangeCount x)
  case ldVxMem x => exact withAccess_eq s _ (rangeCount x)
  case skpVx x => exact withKeyCheck_eq (s.reg x) s _
  case sknpVx x => exact withKeyCheck_eq (s.reg x) s _
  case ldVxK x => exact withKeyCheck_eq (s.reg x) s _
  all_goals rfl

/-- The codes `raises` names are fault codes. -/
theorem raises_ne_none {i : Instr} {s : State} {c : FaultCode} {w : Word} (h : raises i s = some (c, w)) :
    c ≠ FaultCode.none := by
  cases i <;> simp only [raises, rangeFault, keyFault, reduceCtorEq] at h <;> split at h <;> cases h <;> decide

/-- exec, case by case, when it answers a next state. -/
theorem exec_cases {i : Instr} {s t : State} (h : exec i s = .next t) :
    (raises i s = none ∧ t = effect i s) ∨
    ∃ c w, raises i s = some (c, w) ∧ c ≠ FaultCode.none ∧ t = s.withFault c w := by
  rw [exec_eq] at h
  cases e : raises i s with
  | none => rw [e] at h; cases h; exact .inl ⟨rfl, rfl⟩
  | some p =>
    obtain ⟨c, w⟩ := p
    rw [e] at h; cases h; exact .inr ⟨c, w, rfl, raises_ne_none e, rfl⟩

/-- Every instruction completes or enters a fault, from every state. -/
theorem exec_answers (i : Instr) (s : State) : ∃ t, exec i s = .next t := by
  rw [exec_eq]; split <;> exact ⟨_, rfl⟩

/-- No effect touches FAULT. -/
theorem effect_fault (i : Instr) (s : State) : (effect i s).fault = s.fault := by
  cases i <;> simp only [effect, drawEffect] <;> first | rfl | (split <;> rfl) | simp

/-- No effect touches KEY (R31). -/
theorem effect_key (i : Instr) (s : State) : (effect i s).key = s.key := by
  cases i <;> simp only [effect, drawEffect] <;> first | rfl | (split <;> rfl) | simp

end Sys2Proof.Machine
end

