-- ==== Sys2Proof/Laws/PerInstr.lean ====
section
/-! SUPPORT. Per instruction: its encoded word lies in its own row of the opcode table (spec/30_encoding.md R75). -/

namespace Sys2Proof.Laws.EncodesInRow

/-- The word the encoder gives a well-formed instruction is one its row's match and mask select. -/
def Statement (i : Instr) : Prop := i.wellFormed = true → i.row.selects (encode i)

theorem nnn_row {c : Nat} {a bits : Word} (hc : c < 16) (ha : a.toNat < 4096) (hb : bits.toNat = c * 4096) :
    OpcodeRow.selects ⟨bits, 0xF000⟩ (wordNnn c a) := by
  rw [OpcodeRow.selects_iff]
  show (wordNnn c a &&& 0xF000#16).toNat = _
  rw [toNat_and_F000, toNat_wordNnn hc ha, hb]; omega

theorem xkk_row {c : Nat} {bits : Word} (hc : c < 16) (x : Reg) (kk : Byte) (hb : bits.toNat = c * 4096) :
    OpcodeRow.selects ⟨bits, 0xF000⟩ (wordXKk c x kk) := by
  have := x.isLt; have := kk.isLt
  rw [OpcodeRow.selects_iff]
  show (wordXKk c x kk &&& 0xF000#16).toNat = _
  rw [toNat_and_F000, toNat_wordXKk hc, hb]; omega

theorem kk_row {c : Nat} {bits : Word} (hc : c < 16) (x : Reg) (kk : Byte) (hb : bits.toNat = c * 4096 + kk.toNat) :
    OpcodeRow.selects ⟨bits, 0xF0FF⟩ (wordXKk c x kk) := by
  have := x.isLt; have := kk.isLt
  rw [OpcodeRow.selects_iff]
  show (wordXKk c x kk &&& 0xF0FF#16).toNat = _
  rw [toNat_and_F0FF, toNat_wordXKk hc, hb]; omega

theorem xyn_row {c n : Nat} {bits : Word} (hc : c < 16) (hn : n < 16) (x y : Reg) (hb : bits.toNat = c * 4096) :
    OpcodeRow.selects ⟨bits, 0xF000⟩ (wordXYN c x y n) := by
  have := x.isLt; have := y.isLt
  rw [OpcodeRow.selects_iff]
  show (wordXYN c x y n &&& 0xF000#16).toNat = _
  rw [toNat_and_F000, toNat_wordXYN hc hn, hb]; omega

theorem n_row {c n : Nat} {bits : Word} (hc : c < 16) (hn : n < 16) (x y : Reg) (hb : bits.toNat = c * 4096 + n) :
    OpcodeRow.selects ⟨bits, 0xF00F⟩ (wordXYN c x y n) := by
  have := x.isLt; have := y.isLt
  rw [OpcodeRow.selects_iff]
  show (wordXYN c x y n &&& 0xF00F#16).toNat = _
  rw [toNat_and_F00F, toNat_wordXYN hc hn, hb]; omega

theorem cls : Statement .cls := fun _ => by decide

theorem ret : Statement .ret := fun _ => by decide

theorem jpNnn (nnn : Word) : Statement (.jpNnn nnn) := fun h => nnn_row (by decide) (of_decide_eq_true h) rfl

theorem callNnn (nnn : Word) : Statement (.callNnn nnn) := fun h => nnn_row (by decide) (of_decide_eq_true h) rfl

theorem seVxKk (x : Reg) (kk : Byte) : Statement (.seVxKk x kk) := fun _ => xkk_row (by decide) x kk rfl

theorem sneVxKk (x : Reg) (kk : Byte) : Statement (.sneVxKk x kk) := fun _ => xkk_row (by decide) x kk rfl

theorem seVxVy (x y : Reg) : Statement (.seVxVy x y) := fun _ => xyn_row (by decide) (by decide) x y rfl

theorem ldVxKk (x : Reg) (kk : Byte) : Statement (.ldVxKk x kk) := fun _ => xkk_row (by decide) x kk rfl

theorem addVxKk (x : Reg) (kk : Byte) : Statement (.addVxKk x kk) := fun _ => xkk_row (by decide) x kk rfl

theorem ldVxVy (x y : Reg) : Statement (.ldVxVy x y) := fun _ => n_row (by decide) (by decide) x y rfl

theorem orVxVy (x y : Reg) : Statement (.orVxVy x y) := fun _ => n_row (by decide) (by decide) x y rfl

theorem andVxVy (x y : Reg) : Statement (.andVxVy x y) := fun _ => n_row (by decide) (by decide) x y rfl

theorem xorVxVy (x y : Reg) : Statement (.xorVxVy x y) := fun _ => n_row (by decide) (by decide) x y rfl

theorem addVxVy (x y : Reg) : Statement (.addVxVy x y) := fun _ => n_row (by decide) (by decide) x y rfl

theorem subVxVy (x y : Reg) : Statement (.subVxVy x y) := fun _ => n_row (by decide) (by decide) x y rfl

theorem shrVx (x : Reg) : Statement (.shrVx x) := fun _ => n_row (by decide) (by decide) x 0 rfl

theorem subnVxVy (x y : Reg) : Statement (.subnVxVy x y) := fun _ => n_row (by decide) (by decide) x y rfl

theorem shlVx (x : Reg) : Statement (.shlVx x) := fun _ => n_row (by decide) (by decide) x 0 rfl

theorem sneVxVy (x y : Reg) : Statement (.sneVxVy x y) := fun _ => xyn_row (by decide) (by decide) x y rfl

theorem ldINnn (nnn : Word) : Statement (.ldINnn nnn) := fun h => nnn_row (by decide) (of_decide_eq_true h) rfl

theorem jpV0Nnn (nnn : Word) : Statement (.jpV0Nnn nnn) := fun h => nnn_row (by decide) (of_decide_eq_true h) rfl

theorem rndVxKk (x : Reg) (kk : Byte) : Statement (.rndVxKk x kk) := fun _ => xkk_row (by decide) x kk rfl

theorem drwVxVyN (x y : Reg) (n : Nat) : Statement (.drwVxVyN x y n) := fun h => xyn_row (by decide) (of_decide_eq_true h) x y rfl

theorem skpVx (x : Reg) : Statement (.skpVx x) := fun _ => kk_row (by decide) x _ rfl

theorem sknpVx (x : Reg) : Statement (.sknpVx x) := fun _ => kk_row (by decide) x _ rfl

theorem ldVxDt (x : Reg) : Statement (.ldVxDt x) := fun _ => kk_row (by decide) x _ rfl

theorem ldVxK (x : Reg) : Statement (.ldVxK x) := fun _ => kk_row (by decide) x _ rfl

theorem ldDtVx (x : Reg) : Statement (.ldDtVx x) := fun _ => kk_row (by decide) x _ rfl

theorem ldStVx (x : Reg) : Statement (.ldStVx x) := fun _ => kk_row (by decide) x _ rfl

theorem addIVx (x : Reg) : Statement (.addIVx x) := fun _ => kk_row (by decide) x _ rfl

theorem ldFVx (x : Reg) : Statement (.ldFVx x) := fun _ => kk_row (by decide) x _ rfl

theorem ldBVx (x : Reg) : Statement (.ldBVx x) := fun _ => kk_row (by decide) x _ rfl

theorem ldMemVx (x : Reg) : Statement (.ldMemVx x) := fun _ => kk_row (by decide) x _ rfl

theorem ldVxMem (x : Reg) : Statement (.ldVxMem x) := fun _ => kk_row (by decide) x _ rfl

end Sys2Proof.Laws.EncodesInRow
end

