-- ==== Sys2Proof/Laws/Step.lean ====
section
/-! SUPPORT. What one STEP can do, said once: the four cases of spec/30_encoding.md R81. -/

namespace Sys2Proof.Machine

/-- The fetch check passes exactly when PC is at most 0xFFE; else it finds PC or 0x1000 (R164). -/
theorem State.fetchCheck_eq (s : State) :
    s.fetchCheck = if s.pc.toNat ≤ 0xFFE then none else some (max s.pc.toNat 0x1000) := by
  rw [State.fetchCheck, accessCheck_eq]
  simp only [show Config.memSize = 4096 from rfl]
  split <;> split <;> first | rfl | omega

/-- STEP with its status, case by case (R81, R168, R169). -/
theorem cycle_cases (s : State) :
    (s.halted ∧ cycle s = .next (s, .halted s.fault.code)) ∨
    (¬ s.halted ∧ 0xFFE < s.pc.toNat ∧ cycle s =
      .next (s.withFault .memoryOutOfRange (BitVec.ofNat 16 (max s.pc.toNat 0x1000)), .faulted .memoryOutOfRange)) ∨
    (¬ s.halted ∧ s.pc.toNat ≤ 0xFFE ∧ (∃ c, decode s.fetchWord = .unknown c) ∧
      cycle s = .next (s.advance, .unknown s.fetchWord)) ∨
    (¬ s.halted ∧ s.pc.toNat ≤ 0xFFE ∧ ∃ i, decode s.fetchWord = .known i ∧
      cycle s = withStatus statusAfter (exec i s)) := by
  by_cases hh : s.halted
  · exact .inl ⟨hh, by rw [cycle, if_pos hh]⟩
  · by_cases hp : s.pc.toNat ≤ 0xFFE
    · cases hd : decode s.fetchWord with
      | known i =>
        refine .inr (.inr (.inr ⟨hh, hp, i, rfl, ?_⟩))
        rw [cycle, if_neg hh, s.fetchCheck_eq, if_pos hp]; simp only [hd]; rfl
      | unknown c =>
        refine .inr (.inr (.inl ⟨hh, hp, ⟨c, rfl⟩, ?_⟩))
        rw [cycle, if_neg hh, s.fetchCheck_eq, if_pos hp]; simp only [hd]; rfl
    · refine .inr (.inl ⟨hh, by omega, ?_⟩)
      rw [cycle, if_neg hh, s.fetchCheck_eq, if_neg hp]; rfl

/-- STEP, case by case, when it answers a next state. -/
theorem step_cases {s t : State} (h : step s = .next t) :
    (s.halted ∧ t = s) ∨
    (¬ s.halted ∧ 0xFFE < s.pc.toNat ∧
      t = s.withFault .memoryOutOfRange (BitVec.ofNat 16 (max s.pc.toNat 0x1000))) ∨
    (¬ s.halted ∧ s.pc.toNat ≤ 0xFFE ∧ (∃ c, decode s.fetchWord = .unknown c) ∧ t = s.advance) ∨
    (¬ s.halted ∧ s.pc.toNat ≤ 0xFFE ∧ ∃ i, decode s.fetchWord = .known i ∧ exec i s = .next t) := by
  rcases cycle_cases s with ⟨h1, e⟩ | ⟨h1, h2, e⟩ | ⟨h1, h2, h3, e⟩ | ⟨h1, h2, i, h3, e⟩ <;>
    rw [step, e] at h
  · exact .inl ⟨h1, by simpa [forgetStatus] using h.symm⟩
  · exact .inr (.inl ⟨h1, h2, by simpa [forgetStatus] using h.symm⟩)
  · exact .inr (.inr (.inl ⟨h1, h2, h3, by simpa [forgetStatus] using h.symm⟩))
  · refine .inr (.inr (.inr ⟨h1, h2, i, h3, ?_⟩))
    cases he : exec i s <;> simp [he, withStatus, forgetStatus] at h ⊢
    exact h

end Sys2Proof.Machine
end

