-- ==== Sys2Proof/Tests/Slice0.lean ====
section
/-! SUPPORT. The model's own tests: ill-formed terms that WellFormed refuses, words written out from the encodings of
spec/30_encoding.md R75, single steps with the results of spec/95_test_vectors.md (its vector named at each), and for each
statement with hypotheses a concrete state and operands that meet them. -/

namespace Sys2Proof.Tests

open Sys2Proof.Machine

/-! ### Helpers -/

/-- The outcome is a next state with the property. -/
def after (o : Host.Outcome State Fault Refusal) (p : State → Bool) : Bool :=
  match o with
  | .next t => p t
  | .fault _ => false
  | .refused _ => false

/-- The state of an outcome that is a next state. -/
def nextOf (o : Host.Outcome State Fault Refusal) : State :=
  match o with
  | .next t => t
  | .fault _ => State.reset
  | .refused _ => State.reset

/-- The status of a STEP from the state. -/
def statusOf (s : State) : Option StepStatus :=
  match cycle s with
  | .next p => some p.2
  | .fault _ => none
  | .refused _ => none

/-- The reset state with a word at 0x200 and some registers set. -/
def machineWith (word : Nat) (regs : List (Reg × Byte)) : State :=
  regs.foldl (fun s p => s.setReg p.1 p.2) (State.reset.withFetchWord 16 word)

/-- A machine halted by RET on an empty stack. -/
def haltedMachine : State := State.reset.withFault .stackUnderflow 0

/-- The reset state with `n` stack entries. -/
def withDepth (n : Nat) : State := State.reset.setStack (List.replicate n 0x202)

/-! ### Well-formedness -/

theorem test_wf_jp_13_bits : (Instr.jpNnn 0x1000).wellFormed = false := by decide
theorem test_wf_call_13_bits : (Instr.callNnn 0x1000).wellFormed = false := by decide
theorem test_wf_ldI_13_bits : (Instr.ldINnn 0x1000).wellFormed = false := by decide
theorem test_wf_jpV0_13_bits : (Instr.jpV0Nnn 0x1000).wellFormed = false := by decide
theorem test_wf_drw_5_bits : (Instr.drwVxVyN 0 0 16).wellFormed = false := by decide
theorem test_wf_largest : (Instr.jpNnn 0xFFF).wellFormed = true ∧ (Instr.drwVxVyN 15 15 15).wellFormed = true := by decide

/-! ### Decoding, words written out from the patterns of R75 -/

theorem test_decode_cls : decode 0b0000000011100000 = .known .cls := by decide
theorem test_decode_ret : decode 0b0000000011101110 = .known .ret := by decide
theorem test_decode_jp : decode 0b0001001000110100 = .known (.jpNnn 0x234) := by decide
theorem test_decode_call : decode 0b0010111111111110 = .known (.callNnn 0xFFE) := by decide
theorem test_decode_se_byte : decode 0b0011001101000010 = .known (.seVxKk 3 0x42) := by decide
theorem test_decode_sne_byte : decode 0b0100001101000010 = .known (.sneVxKk 3 0x42) := by decide
theorem test_decode_se_reg : decode 0b0101000100100001 = .known (.seVxVy 1 2) := by decide
theorem test_decode_ld_byte : decode 0b0110101001011100 = .known (.ldVxKk 0xA 0x5C) := by decide
theorem test_decode_add_byte : decode 0b0111010100000010 = .known (.addVxKk 5 0x02) := by decide
theorem test_decode_ld_reg : decode 0b1000001000110000 = .known (.ldVxVy 2 3) := by decide
theorem test_decode_or : decode 0b1000001000110001 = .known (.orVxVy 2 3) := by decide
theorem test_decode_and : decode 0b1000001000110010 = .known (.andVxVy 2 3) := by decide
theorem test_decode_xor : decode 0b1000001000110011 = .known (.xorVxVy 2 3) := by decide
theorem test_decode_add : decode 0b1000001000110100 = .known (.addVxVy 2 3) := by decide
theorem test_decode_sub : decode 0b1000001000110101 = .known (.subVxVy 2 3) := by decide
theorem test_decode_shr : decode 0b1000001000110110 = .known (.shrVx 2) := by decide
theorem test_decode_subn : decode 0b1000001000110111 = .known (.subnVxVy 2 3) := by decide
theorem test_decode_shl : decode 0b1000001000111110 = .known (.shlVx 2) := by decide
theorem test_decode_sne_reg : decode 0b1001000100101111 = .known (.sneVxVy 1 2) := by decide
theorem test_decode_ldI : decode 0b1010001100000001 = .known (.ldINnn 0x301) := by decide
theorem test_decode_jpV0 : decode 0b1011001100000001 = .known (.jpV0Nnn 0x301) := by decide
theorem test_decode_rnd : decode 0b1100001111110000 = .known (.rndVxKk 3 0xF0) := by decide
theorem test_decode_drw : decode 0b1101000100100011 = .known (.drwVxVyN 1 2 3) := by decide
theorem test_decode_skp : decode 0b1110000110011110 = .known (.skpVx 1) := by decide
theorem test_decode_sknp : decode 0b1110000110100001 = .known (.sknpVx 1) := by decide
theorem test_decode_ld_dt : decode 0b1111001100000111 = .known (.ldVxDt 3) := by decide
theorem test_decode_ld_key : decode 0b1111000100001010 = .known (.ldVxK 1) := by decide
theorem test_decode_set_dt : decode 0b1111001100010101 = .known (.ldDtVx 3) := by decide
theorem test_decode_set_st : decode 0b1111001100011000 = .known (.ldStVx 3) := by decide
theorem test_decode_addI : decode 0b1111000100011110 = .known (.addIVx 1) := by decide
theorem test_decode_ldF : decode 0b1111101000101001 = .known (.ldFVx 0xA) := by decide
theorem test_decode_ldB : decode 0b1111000000110011 = .known (.ldBVx 0) := by decide
theorem test_decode_store : decode 0b1111001001010101 = .known (.ldMemVx 2) := by decide
theorem test_decode_load : decode 0b1111111101100101 = .known (.ldVxMem 0xF) := by decide

/-- E3, E5: words of the four unknown classes, and CLS with its x ignored. -/
theorem test_decode_unknown :
    decode 0x0123 = .unknown .class0 ∧ decode 0x800F = .unknown .class8 ∧ decode 0xE000 = .unknown .classE ∧
    decode 0xF0FF = .unknown .classF ∧ decode 0x0FE0 = .known .cls := by decide

/-- The word's bytes reach the decoder in the order of memory (R55). -/
theorem test_table_word : decodeTableWord 16 0x1234 = some (.jpNnn 0x234) := by decide

/-! ### Steps -/

/-- D1. -/
theorem test_cls : after (step ((machineWith 0x00E0 []).setFb (Framebuffer.blank.toggle 3 4)))
    (fun t => t.pixelAt 3 4 == false && t.pc == 0x202) = true := by decide +kernel

/-- W11, B1. -/
theorem test_ret_underflow : after (step (machineWith 0x00EE []))
    (fun t => t.faultPort == (2, 0x200, 0) && t.pc == 0x200) = true := by decide

/-- E1. -/
theorem test_jp : after (step (machineWith 0x1234 [])) (fun t => t.pc == 0x234) = true := by decide

/-- B3. -/
theorem test_call_16th : after (step ((machineWith 0x2300 []).setStack (List.replicate 15 0x444)))
    (fun t => t.pc == 0x300 && t.sp == 16 && t.stackEntry 15 == some 0x202 && t.stackEntry 0 == some 0x444) = true := by
  decide

/-- B2. -/
theorem test_call_overflow : after (step ((machineWith 0x2300 []).setStack (List.replicate 16 0x444)))
    (fun t => t.faultPort == (1, 0x200, 0) && t.sp == 16) = true := by decide

/-- B4. -/
theorem test_se_byte : after (step (machineWith 0x3342 [(3, 0x42)])) (fun t => t.pc == 0x204) = true := by decide

/-- B4. -/
theorem test_sne_byte : after (step (machineWith 0x4342 [(3, 0x42)])) (fun t => t.pc == 0x202) = true := by decide

/-- B5. -/
theorem test_se_reg : after (step (machineWith 0x5010 [(0, 4), (1, 5)])) (fun t => t.pc == 0x202) = true := by decide

/-- B5. -/
theorem test_sne_reg : after (step (machineWith 0x9010 [(0, 4), (1, 5)])) (fun t => t.pc == 0x204) = true := by decide

/-- B7. -/
theorem test_jpV0 : after (step (machineWith 0xBFFF [(0, 1)]))
    (fun t => t.pc == 0x1000 && after (step t) (fun u => u.faultPort == (3, 0x1000, 0x1000))) = true := by decide

/-- W1. -/
theorem test_ld_byte : after (step (machineWith 0x6FAB [])) (fun t => t.reg vF == 0xAB && t.pc == 0x202) = true := by decide

/-- A18. -/
theorem test_add_byte_wraps : after (step (machineWith 0x7502 [(5, 0xFE), (15, 1)]))
    (fun t => t.reg 5 == 0 && t.reg vF == 1) = true := by decide

/-- From R123: the source stays. -/
theorem test_ld_reg : after (step (machineWith 0x8120 [(1, 3), (2, 9)]))
    (fun t => t.reg 1 == 9 && t.reg 2 == 9) = true := by decide

/-- A1. -/
theorem test_or : after (step (machineWith 0x8011 [(0, 0x0F), (1, 0xF0), (15, 1)]))
    (fun t => t.reg 0 == 0xFF && t.reg vF == 1) = true := by decide

/-- A2. -/
theorem test_and : after (step (machineWith 0x8012 [(0, 0x3C), (1, 0x0F), (15, 1)]))
    (fun t => t.reg 0 == 0x0C && t.reg vF == 1) = true := by decide

/-- A3. -/
theorem test_xor : after (step (machineWith 0x8013 [(0, 0xFF), (1, 0x0F)])) (fun t => t.reg 0 == 0xF0) = true := by decide

/-- A4: the flag is written last. -/
theorem test_add_flag_last : after (step (machineWith 0x8FF4 [(15, 0x80)])) (fun t => t.reg vF == 1) = true := by decide

/-- W6. -/
theorem test_sub_borrows : after (step (machineWith 0x8015 [(0, 3), (1, 5)]))
    (fun t => t.reg 0 == 0xFE && t.reg vF == 0) = true := by decide

/-- A11. -/
theorem test_shr : after (step (machineWith 0x8236 [(2, 0x05), (3, 0xFF)]))
    (fun t => t.reg 2 == 0x02 && t.reg vF == 1 && t.reg 3 == 0xFF) = true := by decide

/-- A8: the strict comparison. -/
theorem test_subn_equal : after (step (machineWith 0x8017 [(0, 7), (1, 7), (15, 1)]))
    (fun t => t.reg 0 == 0 && t.reg vF == 0) = true := by decide

/-- A13. -/
theorem test_shl : after (step (machineWith 0x820E [(2, 0x81)]))
    (fun t => t.reg 2 == 0x02 && t.reg vF == 1) = true := by decide

/-- A16. -/
theorem test_rnd : after ((machineWith 0xC3F0 []).apply (.step 0x5A)) (fun t => t.reg 3 == 0x50) = true := by decide

/-- M1. -/
theorem test_ldI : after (step (machineWith 0xAFFF [])) (fun t => t.i == 0x0FFF) = true := by decide

/-- M3. -/
theorem test_addI_wraps : after (step ((machineWith 0xF11E [(1, 1)]).setI 0xFFFF))
    (fun t => t.i == 0 && t.reg vF == 1) = true := by decide

/-- M5. -/
theorem test_ldF_not_masked : after (step (machineWith 0xF029 [(0, 0xFF)])) (fun t => t.i == 0x54B) = true := by decide

/-- M6. -/
theorem test_ldB : after (step ((machineWith 0xF033 [(0, 255)]).setI 0x300))
    (fun t => t.byteAt 0x300 == 2 && t.byteAt 0x301 == 5 && t.byteAt 0x302 == 5) = true := by decide

/-- W13. -/
theorem test_store : after (step ((machineWith 0xF155 [(0, 0x11), (1, 0x22)]).setI 0x400))
    (fun t => t.byteAt 0x400 == 0x11 && t.byteAt 0x401 == 0x22 && t.i == 0x400) = true := by decide

/-- M10. -/
theorem test_store_fault : after (step ((machineWith 0xF255 [(0, 0x11)]).setI 0xFFE))
    (fun t => t.faultPort == (3, 0x200, 0x1000) && t.mem == (machineWith 0xF255 []).mem) = true := by decide

/-- From R145 and the default font: V1 is kept. -/
theorem test_load : after (step ((machineWith 0xF065 [(1, 0x77)]).setI 0x055))
    (fun t => t.reg 0 == 0x20 && t.reg 1 == 0x77 && t.i == 0x055) = true := by decide

/-- D2: clipped at the right edge, not wrapped. -/
theorem test_drw_clips : after (step (((machineWith 0xD011 [(0, 60)]).setMem
      ((machineWith 0xD011 []).mem.write 0x300 0xFF)).setI 0x300))
    (fun t => t.pixelAt 60 0 && t.pixelAt 63 0 && !t.pixelAt 59 0 && !t.pixelAt 0 0 && t.reg vF == 0) = true := by
  decide +kernel

/-- D8: bit 7 leftmost, and a collision. -/
theorem test_drw_collides : after (step ((((machineWith 0xD011 []).setMem
      ((machineWith 0xD011 []).mem.write 0x300 0x81)).setI 0x300).setFb (Framebuffer.blank.toggle 0 0)))
    (fun t => !t.pixelAt 0 0 && t.pixelAt 7 0 && !t.pixelAt 1 0 && t.reg vF == 1) = true := by decide +kernel

/-- K1. -/
theorem test_skp : after (step ((machineWith 0xE19E [(1, 3)]).setKeys 0x0008)) (fun t => t.pc == 0x204) = true := by decide

/-- K2. -/
theorem test_sknp : after (step ((machineWith 0xE1A1 [(1, 3)]).setKeys 0x0008)) (fun t => t.pc == 0x202) = true := by decide

/-- W10. -/
theorem test_key_wait : after (step (machineWith 0xF10A [(1, 7)])) (fun t => t.pc == 0x200 && t.reg 1 == 7) = true ∧
    after (step ((machineWith 0xF10A [(1, 7)]).setKeys 0x0080)) (fun t => t.pc == 0x202 && t.reg 1 == 7) = true := by decide

/-- K3. -/
theorem test_key_index : after (step (machineWith 0xF10A [(1, 0x10)]))
    (fun t => t.faultPort == (4, 0x200, 0x10) && t.pc == 0x200) = true := by decide

/-- K5. -/
theorem test_ld_dt : after (step ((machineWith 0xF307 []).setDt 0x3C)) (fun t => t.reg 3 == 0x3C) = true := by decide

/-- From R154, not ST. -/
theorem test_set_dt : after (step (machineWith 0xF315 [(3, 5)])) (fun t => t.dt == 5 && t.st == 0) = true := by decide

/-- K7. -/
theorem test_set_st : after (step (machineWith 0xF318 [(3, 5)]))
    (fun t => t.st == 5 && t.sound && t.dt == 0) = true := by decide

/-- E2: the status of an unknown word, and its only effect. -/
theorem test_unknown : statusOf (machineWith 0x8008 []) = some (.unknown 0x8008) ∧
    after (step (machineWith 0x8008 [])) (fun t => t == (machineWith 0x8008 []).setPc 0x202) = true := by decide +kernel

/-- E6: a fetch at 0xFFF. -/
theorem test_fetch_fault : after (step (State.reset.setPc 0xFFF))
    (fun t => t.faultPort == (3, 0xFFF, 0x1000) && t.pc == 0xFFF) = true := by decide

/-- E8, K9: a halted machine answers Halted, and its delay timer still ticks. -/
theorem test_halted : statusOf haltedMachine = some (.halted .stackUnderflow) ∧
    (haltedMachine.setDt 4).tickDt.dt = 3 := by decide

/-- Every fault code and its status: the four faults are faults of a step. -/
theorem test_fault_statuses :
    statusOf ((machineWith 0x2300 []).setStack (List.replicate 16 0)) = some (.faulted .stackOverflow) ∧
    statusOf (machineWith 0x00EE []) = some (.faulted .stackUnderflow) ∧
    statusOf ((machineWith 0xF033 []).setI 0xFFE) = some (.faulted .memoryOutOfRange) ∧
    statusOf (machineWith 0xE19E [(1, 0x10)]) = some (.faulted .keyIndexOutOfRange) := by decide

/-- LOAD of the empty ROM is the reset state. -/
theorem test_load_empty : load [] = .machine State.reset := by decide +kernel

/-! ### Witnesses: for each statement with hypotheses, a state and operands that meet them -/

theorem witness_LoadBuildsTheResetMachine :
    3584 < (List.replicate 3585 (0 : Byte)).length ∧ (List.replicate 3584 (0 : Byte)).length ≤ 3584 ∧
    3583 < (List.replicate 3584 (0 : Byte)).length ∧ 79 < 80 ∧
    (0xFFF < 4096 ∧ ¬ (0x050 ≤ 0xFFF ∧ 0xFFF ≤ 0x09F) ∧ ¬ (0x200 ≤ 0xFFF ∧ 0xFFF < 0x200 + ([] : List Byte).length)) := by
  refine ⟨by rw [List.length_replicate]; decide, by rw [List.length_replicate], by rw [List.length_replicate]; decide,
    by decide, by decide, by decide, by decide⟩

theorem witness_LoadEntersAtTheFirstRomByte : ∃ s, loadWith defaultFont [0x12, 0x34] = .machine s :=
  ⟨_, if_neg (by decide)⟩

theorem witness_ByteAccessesAreOneByte : (0xFFF : Nat) ≤ 0xFFF ∧ (0xFFE : Nat) ≠ 0xFFF := by decide

theorem witness_CanonicalMemoriesThatRecordTheSameAreEqual :
    Memory.wf [(0x050, 0x00), (0xFFF, 0x01)] ∧ ∀ a, Memory.known [(0x050, 0x00), (0xFFF, 0x01)] a =
      Memory.known (Memory.write 0xFFF 0x01 (Memory.write 0x050 0x00 [])) a :=
  ⟨by decide, fun _ => rfl⟩

theorem witness_StoredRegistersAreFetched :
    (State.reset.setI 0xFF0).base + (15 : Reg).val ≤ 0xFFF ∧ (15 : Reg).val = (14 : Reg).val + 1 ∧ (15 : Reg) ≤ 15 := by
  decide

theorem witness_DecodeOfEncodeIsTheInstruction :
    (Instr.drwVxVyN 15 15 15).wellFormed = true ∧ (Instr.callNnn 0xFFF).wellFormed = true := by decide

theorem witness_OpcodeRowsAreDisjoint :
    (Instr.seVxVy 1 2).row.selects 0x512F ∧ (Instr.seVxVy 0 0).row.selects 0x512F := by decide

theorem witness_StepRunsTheDecodedInstruction :
    let s := (State.reset.setPc 0xFFE).withFetchWord 16 0x6A5C
    ¬ s.halted ∧ s.pc.toNat ≤ 0xFFE ∧
      decode (wordOfBytes (s.byteAt s.pc.toNat) (s.byteAt (s.pc.toNat + 1))) = .known (.ldVxKk 0xA 0x5C) := by decide

theorem witness_UnknownWordIsANoOp :
    let s := (State.reset.setPc 0xFFE).withFetchWord 16 0x8008
    ¬ s.halted ∧ s.pc.toNat ≤ 0xFFE ∧ decode s.fetchWord = .unknown .class8 := by decide

theorem witness_HaltedMachineDoesNotStep : haltedMachine.halted := by decide

theorem witness_HaltIsForever : haltedMachine.halted ∧
    State.run [.tickDt, .setKeys 0x8000, .tickSt] haltedMachine = .next ((haltedMachine.tickDt.setKeys 0x8000).tickSt) :=
  ⟨by decide, rfl⟩

theorem witness_FetchBeyondMemoryFaults :
    (¬ (State.reset.setPc 0xFFF).halted ∧ 0xFFE < (State.reset.setPc 0xFFF).pc.toNat) ∧
    (¬ (State.reset.setPc 0x10FE).halted ∧ 0xFFE < (State.reset.setPc 0x10FE).pc.toNat) := by decide

/-- Each of the four statuses is answered. -/
theorem witness_StatusTellsWhatTheStepDid :
    statusOf (machineWith 0x6A5C []) = some .executed ∧ statusOf (machineWith 0x8008 []) = some (.unknown 0x8008) ∧
    statusOf (machineWith 0x00EE []) = some (.faulted .stackUnderflow) ∧
    statusOf haltedMachine = some (.halted .stackUnderflow) := by decide

/-- No row; and the last row at 0xFFF, with a pixel that is hit and with none. -/
theorem witness_DrwXorsTheClippedSprite :
    let s := (State.reset.setI 0xFFF).setMem [(0xFFF, 0x80)]
    s.base + 1 ≤ 0x1000 ∧ spriteOn (s.setFb (Framebuffer.blank.toggle 0 0)) 0xFFF 0 0 1 0 0 = true ∧
    (s.setFb (Framebuffer.blank.toggle 0 0)).pixelAt 0 0 = true ∧ s.pixelAt 0 0 = false := by decide +kernel

/-- A state, and operands, whose sprite has no lit pixel: the hypothesis of the clause without a collision. -/
theorem witness_DrwXorsTheClippedSprite_clear :
    ¬ ∃ c r, c < 64 ∧ r < 32 ∧ spriteOn State.reset State.reset.base (State.reset.reg 0).toNat (State.reset.reg 0).toNat 0 c r =
      true ∧ State.reset.pixelAt c r = true := by
  rintro ⟨c, r, _, _, h, _⟩
  simp only [spriteOn, Nat.add_zero, Bool.and_eq_true, decide_eq_true_eq] at h
  omega

theorem witness_DrawingTwiceRestoresTheFramebuffer :
    (0 : Reg) ≠ vF ∧ (1 : Reg) ≠ vF ∧ (State.reset.setI 0xFFF).base + 1 ≤ 0x1000 ∧
    ∃ t u, exec (.drwVxVyN 0 1 1) (State.reset.setI 0xFFF) = .next t ∧ exec (.drwVxVyN 0 1 1) t = .next u := by
  obtain ⟨t, ht⟩ := exec_answers (.drwVxVyN 0 1 1) (State.reset.setI 0xFFF)
  obtain ⟨u, hu⟩ := exec_answers (.drwVxVyN 0 1 1) t
  exact ⟨by decide, by decide, by decide, t, u, ht, hu⟩

theorem witness_RetPopsOrUnderflows :
    (withDepth 16).stack = 0x202 :: List.replicate 15 0x202 ∧ (withDepth 0).stack = [] := by decide

theorem witness_CallPushesOrOverflows :
    (0xFFF : Word).toNat ≤ 0xFFF ∧ (withDepth 15).stack.length < 16 ∧ 16 ≤ (withDepth 16).stack.length := by decide

theorem witness_RetUndoesCall : (withDepth 15).stack.length < 16 := by decide

theorem witness_JpSetsPc :
    let s := (State.reset.setPc 0xFFE).withFetchWord 16 0x1FFE
    (0xFFF : Word).toNat ≤ 0xFFF ∧
    (¬ s.halted ∧ s.pc.toNat ≤ 0xFFE ∧ s.fetchWord = BitVec.ofNat 16 (0x1000 + s.pc.toNat)) ∧
    exec (.jpNnn 0xFFF) s = .next (s.setPc 0xFFF) :=
  ⟨by decide, by decide, rfl⟩

theorem witness_SkipOnByteCompare :
    let s := State.reset.setPc 0xFFE
    ¬ s.halted ∧ (∃ t, exec (.seVxKk 0 0) s = .next t ∧ 0xFFE < t.pc.toNat) ∧
    (∃ t, exec (.sneVxKk 0 0) s = .next t ∧ 0xFFE < t.pc.toNat) ∧
    Instr.sneVxKk 0 0 ∈ [Instr.seVxKk 0 0, .sneVxKk 0 0] :=
  ⟨by decide, ⟨_, rfl, by decide⟩, ⟨_, rfl, by decide⟩, by decide⟩

theorem witness_JpV0AddsV0 :
    (0xFFF : Word).toNat ≤ 0xFFF ∧ ¬ (State.reset.setReg 0 0xFF).halted ∧
    0xFFE < (0xFFF : Word).toNat + ((State.reset.setReg 0 0xFF).reg 0).toNat ∧
    exec (.jpV0Nnn 0xFFF) (State.reset.setReg 0 0xFF) =
      .next ((State.reset.setReg 0 0xFF).setPc (indexedTarget 0xFFF ((State.reset.setReg 0 0xFF).reg v0))) :=
  ⟨by decide, by decide, by decide, rfl⟩

theorem witness_RndMasksTheDraw :
    (State.reset.presentRand 0x5A).randIn = [0x5A] ∧ State.reset.randIn = [] := by decide

theorem witness_IndexLoads :
    (0xFFF : Word).toNat ≤ 0xFFF ∧ (∃ t, exec (.ldINnn 0xFFF) State.reset = .next t) ∧
    ((1 : Reg) ≠ 0 ∧ Instr.ldVxMem 1 ∈ [Instr.ldMemVx 1, .ldVxMem 1]) ∧ 2 ≤ 2 :=
  ⟨by decide, ⟨_, rfl⟩, by decide, by decide⟩

theorem witness_BcdStoresTheDigits : (State.reset.setI 0xFFD).base + 2 ≤ 0xFFF := by decide

theorem witness_StoreWritesTheRegisters :
    (State.reset.setI 0xFF0).base + (15 : Reg).val ≤ 0xFFF ∧ (15 : Reg) ≤ 15 := by decide

theorem witness_LoadReadsTheRegisters :
    (State.reset.setI 0xFFF).base + (0 : Reg).val ≤ 0xFFF ∧ (0 : Reg) ≤ 0 := by decide

theorem witness_StoreThenLoadRestoresRegisters :
    (State.reset.setI 0xFF1).base + (14 : Reg).val ≤ 0xFFF ∧ (14 : Reg) ≤ 14 ∧ (14 : Reg) < 15 := by decide

/-- Each clause with I inside the space and just reaching out of it, and with I beyond it. -/
theorem witness_AccessBeyondMemoryFaults :
    (1 ≠ 0 ∧ 0xFFF < (State.reset.setI 0x1000).base + 1 - 1) ∧ (2 ≠ 0 ∧ 0xFFF < (State.reset.setI 0xFFF).base + 2 - 1) ∧
    0xFFF < (State.reset.setI 0xFFE).base + 2 ∧ 0xFFF < (State.reset.setI 0xFFF).base + (1 : Reg).val ∧
    0xFFF < (State.reset.setI 0xFFFF).base + (0 : Reg).val := by decide

theorem witness_KeySkips : ((State.reset.setReg 1 0xF).reg 1).toNat ≤ 0xF := by decide

theorem witness_KeyWaitSpins :
    let s := State.reset.setReg 1 0xF
    (s.reg 1).toNat ≤ 0xF ∧ (s.setKeys 0x8000).key.getLsbD (s.reg 1).toNat = true ∧
    s.key.getLsbD (s.reg 1).toNat = false := by decide

theorem witness_KeyIndexBeyondTheLatchFaults :
    0xF < ((State.reset.setReg 1 0x10).reg 1).toNat ∧
    Instr.ldVxK 1 ∈ [Instr.skpVx 1, .sknpVx 1, .ldVxK 1] := by decide

theorem witness_DelayTimerReadAndSet : State.reset.reg 3 = 0 := by decide

/-- An instruction that changes a register, and one that changes I. -/
theorem witness_RegistersChangeOnlyAsTheTableSays :
    (∃ t, exec (.ldVxKk 3 7) State.reset = .next t ∧ t.reg 3 ≠ State.reset.reg 3) ∧
    (∃ t, exec (.ldINnn 7) State.reset = .next t ∧ t.i ≠ State.reset.i) :=
  ⟨⟨_, rfl, by decide⟩, ⟨_, rfl, by decide⟩⟩

/-- SUB with every register but its two changed. -/
theorem witness_RegistersMatterOnlyAsTheTableSays :
    let v' : Vector Byte 16 := Vector.ofFn fun r : Reg => if r.val ≤ 1 then 0 else 9
    ∃ t, exec (.subVxVy 0 1) State.reset = .next t ∧ ¬ t.halted ∧
      ∀ r, readsReg (.subVxVy 0 1) r → v'[r.val] = State.reset.reg r := by
  refine ⟨_, rfl, by decide, fun r h => ?_⟩
  rcases h with rfl | rfl <;> decide

theorem witness_FramebufferIsTheControllersAlone :
    (touchesFb (.addVxVy 0 15) = false ∧ ∃ t, exec (.addVxVy 0 15) State.reset = .next t) ∧
    ∃ s, loadWith defaultFont [] = .machine s :=
  ⟨⟨by decide, _, rfl⟩, _, if_neg (by decide)⟩

/-- A step and an operation that answer a next state, an instruction that does not read KEY, and a key latch that agrees with
the state's at the index of V1 only. -/
theorem witness_KeyLatchIsReadOnlyToTheCore :
    let s := State.reset.setReg 1 0xF
    (∃ t, step (machineWith 0x6A5C []) = .next t) ∧ (∃ t, s.apply (.setKeys 0x7FFF) = .next t) ∧
    (readsKey (.ldVxDt 1) = false ∧ ∃ t, exec (.ldVxDt 1) s = .next t) ∧
    (0x7FFF : BitVec 16).getLsbD (s.reg 1).toNat = s.key.getLsbD (s.reg 1).toNat ∧
    (∃ t, exec (.skpVx 1) s = .next t) := by
  refine ⟨?_, ⟨_, rfl⟩, ⟨by decide, _, rfl⟩, by decide, exec_answers _ _⟩
  rcases cycle_cases (machineWith 0x6A5C []) with ⟨_, e⟩ | ⟨_, _, e⟩ | ⟨_, _, _, e⟩ | ⟨_, _, i, _, e⟩
  · exact ⟨_, by rw [step, e]; rfl⟩
  · exact ⟨_, by rw [step, e]; rfl⟩
  · exact ⟨_, by rw [step, e]; rfl⟩
  · obtain ⟨t, ht⟩ := exec_answers i (machineWith 0x6A5C [])
    exact ⟨t, by rw [step, e, ht]; rfl⟩

theorem witness_CallStackIsOnlyPushedAndPopped :
    touchesStack (.ldBVx 0) = false ∧ (∃ t, exec (.ldBVx 0) (State.reset.setI 0x300) = .next t) ∧ (withDepth 16).sp ≤ 16 :=
  ⟨by decide, exec_answers _ _, by decide⟩

/-- Memories that agree where the instruction reads, an instruction that writes a byte, and a host operation. -/
theorem witness_MemoryIsTouchedOnlyAsTheTableSays :
    let s := State.reset.setI 0x050
    let m : Memory := [(0xFFF, 0x01)]
    let w := (State.reset.setI 0xFFF).setReg 0 0x33
    (m.read 0x050 = s.byteAt 0x050 ∧ m.read 0x051 = s.byteAt 0x051) ∧
    (touchesMem (.addIVx 0) = false ∧ ∃ t, exec (.addIVx 0) s = .next t) ∧
    (∃ t, exec (.ldMemVx 0) (w.setMem m) = .next t ∧ t.byteAt 0xFFF ≠ (w.setMem m).byteAt 0xFFF) ∧
    (∃ t, exec (.drwVxVyN 0 0 1) s = .next t) ∧ (∃ t, exec (.ldVxMem 1) s = .next t) ∧
    (∃ t, exec (.ldBVx 1) s = .next t) ∧ (∃ t, s.apply .tickDt = .next t) :=
  ⟨by decide, ⟨by decide, _, rfl⟩, ⟨effect (.ldMemVx 0) _, rfl, by decide⟩, exec_answers _ _, exec_answers _ _,
    exec_answers _ _, _, rfl⟩

theorem witness_DelayTimerOnlyByItsInstructions :
    (∃ t, exec (.ldDtVx 0) (State.reset.setReg 0 7) = .next t ∧ t.dt ≠ State.reset.dt) ∧
    (∀ x, Instr.ldStVx 0 ≠ .ldVxDt x) ∧ (∃ t, exec (.ldStVx 0) State.reset = .next t) ∧
    after (step (machineWith 0xF315 [(3, 5)])) (fun t => t.dt == 5) = true :=
  ⟨⟨_, rfl, by decide⟩, by decide, ⟨_, rfl⟩, by decide⟩

theorem witness_TicksSaturateIndependently :
    ∀ op ∈ [HostOp.tickDt, .tickSt, .tickDt], op = HostOp.tickDt ∨ op = HostOp.tickSt := by decide

theorem witness_SoundTicksCommuteWithSteps :
    after (step (machineWith 0x6A5C [])) (fun t => t.reg 0xA == 0x5C) = true ∧
    ∀ x, decode (machineWith 0x6A5C []).fetchWord ≠ .known (.ldStVx x) := by decide

theorem witness_HostPorts : (withDepth 1).sp ≠ 0 ∧ (withDepth 0).sp = 0 ∧ (15 : Nat) < 16 := by decide

/-- The state of the witness below: a full stack of the largest entries, and RET at the highest address a fetch accepts. -/
def fullStack : State := ((State.reset.setStack (List.replicate 16 0x1000)).setPc 0xFFE).withFetchWord 16 0x00EE

theorem witness_StepKeepsTheInvariant : fullStack.Inv ∧ after (step fullStack) (fun t => t.pc == 0x1000) = true :=
  ⟨⟨by decide, by decide, fun e h => by rw [List.eq_of_mem_replicate h]; decide, by decide, rfl, fun h => absurd rfl h⟩,
    by decide⟩

/-- A machine LOAD builds, of the empty ROM; an operation from a state that meets the invariant; a reachable state. -/
theorem witness_EveryReachableStateMeetsTheInvariant :
    loadWith defaultFont [] = .machine State.reset ∧
    (fullStack.Inv ∧ fullStack.apply (.setKeys 0x8000) = .next (fullStack.setKeys 0x8000)) ∧ Reachable State.reset :=
  ⟨test_load_empty, ⟨witness_StepKeepsTheInvariant.1, rfl⟩, .load defaultFont [] State.reset test_load_empty⟩

end Sys2Proof.Tests
end

/-! SUPPORT. Two runs of one instruction side by side: states that raise the same fault stay related when the effect and the
fault entry keep the relation. Then the updates of KEY and of DT that pass through every effect that does not read them. -/

namespace Sys2Proof.Machine

/-! ### One instruction from two states -/

/-- An instruction that raises the same fault from both states, or none, leads to related states when fault entry and the
effect do: exec need not be looked into again. -/
theorem exec_related {i : Instr} {s s' t : State} (R : State → State → Prop) (hraises : raises i s' = raises i s)
    (hfault : ∀ c w, R (s.withFault c w) (s'.withFault c w)) (heffect : R (effect i s) (effect i s'))
    (h : exec i s = .next t) : ∃ t', exec i s' = .next t' ∧ R t t' := by
  rw [exec_eq i s', hraises]
  rcases exec_cases h with ⟨hr, rfl⟩ | ⟨c, w, hr, -, rfl⟩ <;> rw [hr]
  · exact ⟨_, rfl, heffect⟩
  · exact ⟨_, rfl, hfault c w⟩

/-! ### Skips and the key wait as writes of PC -/

/-- A skip is a write of PC, so that an update of another field passes through it by computation (R100). -/
theorem State.skipIf_eq_setPc (s : State) (b : Bool) : s.skipIf b = s.setPc (if b then s.pc + 2 else s.pc) := by
  cases b <;> rfl

/-- Fx0A is a write of PC: on when the key is down, else back to the fetch address (R152). -/
theorem effect_ldVxK (x : Reg) (s : State) :
    effect (.ldVxK x) s = s.setPc (if s.keyDown (s.reg x) then s.pc + 2 else s.pc) := by
  simp only [effect, State.advance_pc, add_two_sub_two]
  split <;> rfl

/-! ### The key latch -/

/-- No instruction writes KEY, completing or faulting (R31). -/
theorem exec_key {i : Instr} {s t : State} (h : exec i s = .next t) : t.key = s.key := by
  rcases exec_cases h with ⟨-, rfl⟩ | ⟨c, w, -, -, rfl⟩
  · exact effect_key i s
  · rfl

/-- No step writes KEY (R31). -/
theorem step_key {s t : State} (h : step s = .next t) : t.key = s.key := by
  rcases step_cases h with ⟨-, rfl⟩ | ⟨-, -, rfl⟩ | ⟨-, -, -, rfl⟩ | ⟨-, -, i, -, he⟩
  · rfl
  · rfl
  · rfl
  · exact exec_key he

/-- Of the host's operations only SET_KEYS writes KEY (R31, R175). -/
theorem apply_key {s t : State} {op : HostOp} (h : s.apply op = .next t) :
    t.key = s.key ∨ ∃ k, op = .setKeys k ∧ t.key = k := by
  cases op with
  | step r => exact .inl (step_key (s := s.presentRand r) h)
  | tickDt => cases h; exact .inl rfl
  | tickSt => cases h; exact .inl rfl
  | setKeys k => cases h; exact .inr ⟨k, rfl, rfl⟩

/-- The key index is checked against the latch's size, not against the latch. -/
theorem raises_setKeys (i : Instr) (s : State) (k : BitVec 16) : raises i (s.setKeys k) = raises i s := by
  cases i <;> rfl

theorem State.consumeRand_setKeys (s : State) (k : BitVec 16) :
    (s.setKeys k).consumeRand = s.consumeRand.setKeys k := by
  unfold State.consumeRand
  rw [State.setKeys_randIn]
  split <;> rfl

/-- Another latch passes through the effect of an instruction that does not read KEY. -/
theorem effect_setKeys {i : Instr} (hi : readsKey i = false) (s : State) (k : BitVec 16) :
    effect i (s.setKeys k) = (effect i s).setKeys k := by
  cases i
  case skpVx | sknpVx | ldVxK => cases hi
  case seVxKk | sneVxKk | seVxVy | sneVxVy => simp only [effect, State.skipIf_eq_setPc]; rfl
  case rndVxKk x kk =>
    exact congrArg (State.setReg · x (s.rand &&& kk)) (s.advance.consumeRand_setKeys k)
  all_goals rfl

/-- Another latch passes through the effect of a reader of KEY when it agrees at the entry Vx names. -/
theorem effect_setKeys_of_entry_eq {i : Instr} {x : Reg} (hi : i ∈ [Instr.skpVx x, .sknpVx x, .ldVxK x]) {s : State}
    {k : BitVec 16} (hk : (s.setKeys k).keyDown (s.reg x) = s.keyDown (s.reg x)) :
    effect i (s.setKeys k) = (effect i s).setKeys k := by
  simp only [List.mem_cons, List.not_mem_nil, or_false] at hi
  rcases hi with rfl | rfl | rfl
  · simp only [effect, State.skipIf_eq_setPc, State.setKeys_reg, hk]; rfl
  · simp only [effect, State.skipIf_eq_setPc, State.setKeys_reg, hk]; rfl
  · simp only [effect_ldVxK, State.setKeys_reg, hk]; rfl

/-- With another latch that passes through its effect, an instruction answers the same state with that latch. -/
theorem exec_setKeys {i : Instr} {s t : State} {k : BitVec 16} (he : effect i (s.setKeys k) = (effect i s).setKeys k)
    (h : exec i s = .next t) : exec i (s.setKeys k) = .next (t.setKeys k) := by
  obtain ⟨_, e, rfl⟩ :=
    exec_related (fun t t' => t' = t.setKeys k) (raises_setKeys i s k) (fun _ _ => rfl) he h
  exact e

/-- Settles O50: KEY is kept by `step_key` and `apply_key`, and passes through by `exec_setKeys` where it is not read. -/
theorem keyLatchIsReadOnlyToTheCore : Obligations.KeyLatchIsReadOnlyToTheCore :=
  ⟨fun _ _ => step_key, fun _ _ _ => apply_key,
    fun _ s _ k hi => exec_setKeys (effect_setKeys hi s k),
    fun _ _ _ _ hk _ hi => exec_setKeys (effect_setKeys_of_entry_eq hi hk)⟩

/-! ### The delay timer -/

/-- Fx15 sets DT to Vx; no other effect changes it (R26, R154). -/
theorem effect_dt (i : Instr) (s : State) :
    (effect i s).dt = s.dt ∨ ∃ x, i = .ldDtVx x ∧ (effect i s).dt = s.reg x := by
  cases i
  case ldDtVx x => exact .inr ⟨x, rfl, rfl⟩
  all_goals left
  case ldVxK => rw [effect_ldVxK]; rfl
  case rndVxKk => exact s.advance.consumeRand_dt
  case seVxKk | sneVxKk | seVxVy | sneVxVy | skpVx | sknpVx => exact s.advance.skipIf_dt _
  all_goals rfl

/-- Of the instructions only Fx15 changes DT; a fault entry keeps it (R26, R161). -/
theorem exec_dt {i : Instr} {s t : State} (h : exec i s = .next t) :
    t.dt = s.dt ∨ ∃ x, i = .ldDtVx x ∧ t.dt = s.reg x := by
  rcases exec_cases h with ⟨-, rfl⟩ | ⟨c, w, -, -, rfl⟩
  · exact effect_dt i s
  · exact .inl rfl

/-- A step changes DT only by a fetched Fx15 (R26). -/
theorem step_dt {s t : State} (h : step s = .next t) :
    t.dt = s.dt ∨ ∃ x, decode s.fetchWord = .known (.ldDtVx x) ∧ t.dt = s.reg x := by
  rcases step_cases h with ⟨-, rfl⟩ | ⟨-, -, rfl⟩ | ⟨-, -, -, rfl⟩ | ⟨-, -, i, hd, he⟩
  · exact .inl rfl
  · exact .inl rfl
  · exact .inl rfl
  · exact (exec_dt he).imp_right fun ⟨x, hi, ht⟩ => ⟨x, hi ▸ hd, ht⟩

theorem raises_setDt (i : Instr) (s : State) (d : Byte) : raises i (s.setDt d) = raises i s := by
  cases i <;> rfl

theorem State.consumeRand_setDt (s : State) (d : Byte) : (s.setDt d).consumeRand = s.consumeRand.setDt d := by
  unfold State.consumeRand
  rw [State.setDt_randIn]
  split <;> rfl

/-- Another DT changes nothing but DT in the effect of an instruction other than Fx07: Fx15 overwrites it, all others keep
it. -/
theorem effect_setDt {i : Instr} (hi : ∀ x, i ≠ .ldVxDt x) (s : State) (d : Byte) :
    ∃ d', effect i (s.setDt d) = (effect i s).setDt d' := by
  cases i
  case ldVxDt x => exact absurd rfl (hi x)
  case ldDtVx x => exact ⟨s.reg x, rfl⟩
  all_goals refine ⟨d, ?_⟩
  case seVxKk | sneVxKk | seVxVy | sneVxVy | skpVx | sknpVx => simp only [effect, State.skipIf_eq_setPc]; rfl
  case ldVxK => simp only [effect_ldVxK]; rfl
  case rndVxKk x kk =>
    exact congrArg (State.setReg · x (s.rand &&& kk)) (s.advance.consumeRand_setDt d)
  all_goals rfl

/-- Another DT changes nothing but DT in the outcome of an instruction other than Fx07 (R26). -/
theorem exec_setDt {i : Instr} (hi : ∀ x, i ≠ .ldVxDt x) {s t : State} (d : Byte) (h : exec i s = .next t) :
    ∃ d', exec i (s.setDt d) = .next (t.setDt d') := by
  obtain ⟨_, e, d', rfl⟩ :=
    exec_related (fun t t' => ∃ d', t' = t.setDt d') (raises_setDt i s d) (fun _ _ => ⟨d, rfl⟩) (effect_setDt hi s d) h
  exact ⟨d', e⟩

/-- A tick takes 1 off, never below 0 (R171). -/
theorem toNat_tick (b : Byte) : (tick b).toNat = b.toNat - 1 := by
  rw [tick, BitVec.toNat_ofNat, Nat.mod_eq_of_lt (by have := b.isLt; omega)]

/-- Settles O53: DT changes by `step_dt` alone in a step, and is read by no instruction but Fx07 by `exec_setDt`. -/
theorem delayTimerOnlyByItsInstructions : Obligations.DelayTimerOnlyByItsInstructions :=
  ⟨fun _ _ _ => exec_dt, fun _ _ => step_dt, fun _ _ _ d hi => exec_setDt hi d, fun s => ⟨toNat_tick s.dt, rfl⟩⟩

end Sys2Proof.Machine

/-! SUPPORT. Memory as the table of R51 has it: for each instruction how many bytes from I it reads and which bytes it stores from
I on; another memory passes through exec when it agrees on the bytes read. -/

namespace Sys2Proof.Machine

/-- Settles O3: a write is seen at its address and nowhere else by `Memory.read_write`. -/
theorem byteAccessesAreOneByte : Obligations.ByteAccessesAreOneByte := by
  refine ⟨fun m a b ha => ?_, fun m a c b hc => ?_, fun s => toNat_wordOfBytes _ _⟩
  · rw [Memory.read_write, if_pos ⟨rfl, Nat.lt_succ_of_le ha⟩]
  · rw [Memory.read_write, if_neg fun h => hc h.1]

/-! ### What an instruction reads and stores -/

/-- How many bytes from I an instruction reads: DRW its sprite, Fx65 its range, every other none (R51). -/
def readCount : Instr → Nat
  | .drwVxVyN _ _ n => n
  | .ldVxMem x => rangeCount x
  | _ => 0

/-- The bytes an instruction stores from I on: Fx33 the digits, Fx55 the registers, every other none (R51). -/
def storedBytes (i : Instr) (s : State) : List Byte :=
  match i with
  | .ldBVx x => bcdDigits (s.reg x)
  | .ldMemVx x => s.regsUpTo x
  | _ => []

theorem State.regsUpTo_length (s : State) (x : Reg) : (s.regsUpTo x).length = rangeCount x := by
  have := x.isLt
  simp only [State.regsUpTo, rangeCount, List.length_take, Vector.length_toList]
  omega

/-- Outside the table's memory instructions nothing is read and nothing stored. -/
theorem no_access_of_not_touchesMem {i : Instr} (h : touchesMem i = false) (s : State) :
    readCount i = 0 ∧ storedBytes i s = [] := by
  cases i
  case drwVxVyN | ldBVx | ldMemVx | ldVxMem => cases h
  all_goals exact ⟨rfl, rfl⟩

/-- The addresses the table lets an instruction write are those of the bytes it stores. -/
theorem writesMem_iff (i : Instr) (s : State) (a : Nat) :
    writesMem i s a ↔ s.base ≤ a ∧ a < s.base + (storedBytes i s).length := by
  cases i
  case ldBVx => exact Iff.rfl
  case ldMemVx x => rw [storedBytes, s.regsUpTo_length]; exact Iff.rfl
  all_goals exact ⟨False.elim, fun ⟨hle, hlt⟩ => absurd hlt (Nat.not_lt.mpr hle)⟩

/-- The bytes stored are what the effect writes to memory. -/
theorem effect_mem (i : Instr) (s : State) : (effect i s).mem = s.mem.writeBytes s.base (storedBytes i s) := by
  cases i
  case ldVxK => rw [effect_ldVxK]; rfl
  case rndVxKk => exact s.advance.consumeRand_mem
  case seVxKk | sneVxKk | seVxVy | sneVxVy | skpVx | sknpVx => exact s.advance.skipIf_mem _
  all_goals rfl

/-- A range that raises no fault is empty or fits the address space (R54). -/
theorem fits_of_rangeFault_eq_none {s : State} {n : Nat} (h : rangeFault s n = none) :
    n = 0 ∨ s.base + n ≤ Config.memSize := by
  by_contra hn
  rw [rangeFault, if_neg hn] at h
  cases h

/-- An instruction that completes has room for the bytes it stores (R54). -/
theorem storedBytes_fit {i : Instr} {s : State} (h : raises i s = none) :
    (storedBytes i s).length = 0 ∨ s.base + (storedBytes i s).length ≤ Config.memSize := by
  cases i
  case ldBVx => exact fits_of_rangeFault_eq_none h
  case ldMemVx x => rw [storedBytes, s.regsUpTo_length]; exact fits_of_rangeFault_eq_none h
  all_goals exact .inl rfl

/-- Storing the bytes of an instruction that completes changes no byte but those the table names. -/
theorem read_writeBytes_storedBytes_outside {i : Instr} {s : State} (h : raises i s = none) (m : Memory) {a : Nat}
    (ha : ¬ writesMem i s a) : (m.writeBytes s.base (storedBytes i s)).read a = m.read a := by
  rw [writesMem_iff] at ha
  rcases storedBytes_fit h with h0 | hfit
  · rw [List.length_eq_zero_iff.mp h0]; rfl
  · rw [Memory.read_writeBytes _ _ _ _ hfit, if_neg ha]

/-- The bytes the table names are overwritten, whatever memory held. -/
theorem read_writeBytes_storedBytes_inside {i : Instr} {s : State} (h : raises i s = none) (m : Memory) {a : Nat}
    (ha : writesMem i s a) :
    (m.writeBytes s.base (storedBytes i s)).read a = ((storedBytes i s)[a - s.base]?).getD 0 := by
  rw [writesMem_iff] at ha
  rcases storedBytes_fit h with h0 | hfit
  · omega
  · rw [Memory.read_writeBytes _ _ _ _ hfit, if_pos ha]

/-- An instruction changes no byte but those the table names; a fault entry changes none (R51, R161). -/
theorem writesMem_of_byteAt_ne {i : Instr} {s t : State} {a : Nat} (h : exec i s = .next t)
    (ha : t.byteAt a ≠ s.byteAt a) : writesMem i s a := by
  by_contra hw
  apply ha
  rcases exec_cases h with ⟨hr, rfl⟩ | ⟨c, w, -, -, rfl⟩
  · rw [State.byteAt, effect_mem]
    exact read_writeBytes_storedBytes_outside hr s.mem hw
  · rfl

/-! ### Another memory -/

theorem raises_setMem (i : Instr) (s : State) (m : Memory) : raises i (s.setMem m) = raises i s := by
  cases i <;> rfl

theorem State.consumeRand_setMem (s : State) (m : Memory) : (s.setMem m).consumeRand = s.consumeRand.setMem m := by
  unfold State.consumeRand
  rw [State.setMem_randIn]
  split <;> rfl

/-- A sprite is the same in another memory that agrees on its bytes. -/
theorem State.bytesFrom_setMem {s : State} {m : Memory} {base n : Nat}
    (hm : ∀ k, k < n → m.read (base + k) = s.byteAt (base + k)) :
    (s.setMem m).bytesFrom base n = s.bytesFrom base n :=
  List.map_congr_left fun k hk => hm k (List.mem_range.mp hk)

/-- The registers loaded are the same from another memory that agrees on their bytes. -/
theorem State.loadRegs_setMem {s : State} {m : Memory} {base : Nat} {x : Reg}
    (hm : ∀ k, k < rangeCount x → m.read (base + k) = s.byteAt (base + k)) :
    (s.setMem m).loadRegs base x = (s.loadRegs base x).setMem m := by
  have hv : ((s.setMem m).loadRegs base x).v = (s.loadRegs base x).v := by
    refine congrArg Vector.ofFn (funext fun k => ?_)
    split
    next hk => exact hm k.val (Nat.lt_succ_of_le hk)
    next => rfl
  exact congrArg (fun v => { s with mem := m, v := v }) hv

/-- Another memory that agrees on the bytes an instruction reads passes through its effect, and takes the bytes it stores. -/
theorem effect_setMem {i : Instr} {s : State} {m : Memory}
    (hm : ∀ k, k < readCount i → m.read (s.base + k) = s.byteAt (s.base + k)) :
    effect i (s.setMem m) = (effect i s).setMem (m.writeBytes s.base (storedBytes i s)) := by
  cases i
  case drwVxVyN x y n =>
    have hsprite : (s.setMem m).bytesFrom (s.setMem m).base n = s.bytesFrom s.base n := State.bytesFrom_setMem hm
    simp only [effect, drawEffect, hsprite]
    rfl
  case ldVxMem x => exact State.loadRegs_setMem (s := s.advance) hm
  case seVxKk | sneVxKk | seVxVy | sneVxVy | skpVx | sknpVx => simp only [effect, State.skipIf_eq_setPc]; rfl
  case ldVxK => simp only [effect_ldVxK]; rfl
  case rndVxKk x kk =>
    exact congrArg (State.setReg · x (s.rand &&& kk)) (s.advance.consumeRand_setMem m)
  all_goals rfl

/-- With another memory that agrees on the bytes an instruction reads, it completes with its bytes stored there, or enters the
same fault and leaves that memory as it is. -/
theorem exec_setMem_cases {i : Instr} {s t : State} {m : Memory}
    (hm : ∀ k, k < readCount i → m.read (s.base + k) = s.byteAt (s.base + k)) (h : exec i s = .next t) :
    (raises i s = none ∧ t = effect i s ∧
      exec i (s.setMem m) = .next (t.setMem (m.writeBytes s.base (storedBytes i s)))) ∨
    (t.halted ∧ exec i (s.setMem m) = .next (t.setMem m)) := by
  rw [exec_eq i (s.setMem m), raises_setMem]
  rcases exec_cases h with ⟨hr, rfl⟩ | ⟨c, w, hr, hc, rfl⟩ <;> rw [hr]
  · exact .inl ⟨rfl, rfl, congrArg Host.Outcome.next (effect_setMem hm)⟩
  · exact .inr ⟨hc, rfl⟩

/-- An instruction that stores nothing answers the same state with the other memory. -/
theorem exec_setMem {i : Instr} {s t : State} {m : Memory} (hstored : storedBytes i s = [])
    (hm : ∀ k, k < readCount i → m.read (s.base + k) = s.byteAt (s.base + k)) (h : exec i s = .next t) :
    exec i (s.setMem m) = .next (t.setMem m) := by
  rcases exec_setMem_cases hm h with ⟨-, -, e⟩ | ⟨-, e⟩
  · rw [hstored] at e; exact e
  · exact e

/-- From another memory, an instruction that reads none of it answers a state that differs in memory alone; when it completes,
the bytes the table names are the same. -/
theorem exec_setMem_of_readCount_eq_zero {i : Instr} {s t : State} (hread : readCount i = 0) (m : Memory)
    (h : exec i s = .next t) : ∃ t', exec i (s.setMem m) = .next t' ∧ t'.setMem t.mem = t ∧
      (¬ t.halted → ∀ a, writesMem i s a → t'.byteAt a = t.byteAt a) := by
  have hm : ∀ k, k < readCount i → m.read (s.base + k) = s.byteAt (s.base + k) :=
    fun k hk => absurd hk (hread ▸ k.not_lt_zero)
  rcases exec_setMem_cases hm h with ⟨hr, rfl, e⟩ | ⟨hh, e⟩
  · refine ⟨_, e, rfl, fun _ a ha => ?_⟩
    rw [State.setMem_byteAt, State.byteAt, effect_mem, read_writeBytes_storedBytes_inside hr m ha,
      read_writeBytes_storedBytes_inside hr s.mem ha]
  · exact ⟨_, e, rfl, fun hn => absurd hh hn⟩

/-- The fetch reads the bytes at PC and PC + 1 only (R55). -/
theorem State.fetchWord_setMem {s : State} {m : Memory} (h0 : m.read s.pc.toNat = s.byteAt s.pc.toNat)
    (h1 : m.read (s.pc.toNat + 1) = s.byteAt (s.pc.toNat + 1)) : (s.setMem m).fetchWord = s.fetchWord :=
  congrArg₂ wordOfBytes h0 h1

/-- Of the host's operations on a running machine only STEP writes memory (R51). -/
theorem apply_mem {s t : State} {op : HostOp} (hop : ∀ r, op ≠ .step r) (h : s.apply op = .next t) : t.mem = s.mem := by
  cases op with
  | step r => exact absurd rfl (hop r)
  | tickDt | tickSt | setKeys => cases h; rfl

/-- Settles O52: reads by `exec_setMem` from a memory that agrees where the table says, writes by `writesMem_of_byteAt_ne`. -/
theorem memoryIsTouchedOnlyAsTheTableSays : Obligations.MemoryIsTouchedOnlyAsTheTableSays := by
  refine ⟨fun s m => State.fetchWord_setMem, fun i s t m hi => ?_, fun i s t a => writesMem_of_byteAt_ne,
    fun s t x y n m h hm => exec_setMem rfl hm h,
    fun s t x m h hm => exec_setMem rfl (fun k hk => hm k (Nat.le_of_lt_succ hk)) h, fun s t x m i hi => ?_,
    fun s t op => apply_mem⟩
  · obtain ⟨hread, hstored⟩ := no_access_of_not_touchesMem hi s
    exact exec_setMem hstored fun k hk => absurd hk (hread ▸ k.not_lt_zero)
  · have hread : readCount i = 0 := by
      simp only [List.mem_cons, List.not_mem_nil, or_false] at hi
      rcases hi with rfl | rfl <;> rfl
    exact exec_setMem_of_readCount_eq_zero hread m

end Sys2Proof.Machine

/-! SUPPORT. The step of an unknown word (R79, R166). -/

namespace Sys2Proof.Machine

/-- Of the four cases of STEP, an unknown word fetched by a running machine leaves the no-op alone (R79). -/
theorem cycle_of_decode_unknown {s : State} {c : UnknownClass} (hh : ¬ s.halted) (hp : s.pc.toNat ≤ 0xFFE)
    (hd : decode s.fetchWord = .unknown c) : cycle s = .next (s.advance, .unknown s.fetchWord) := by
  rcases cycle_cases s with ⟨hhalted, -⟩ | ⟨-, hbeyond, -⟩ | ⟨-, -, -, e⟩ | ⟨-, -, i, hknown, -⟩
  · exact absurd hhalted hh
  · exact absurd hp (Nat.not_le.mpr hbeyond)
  · exact e
  · rw [hd] at hknown; cases hknown

/-- Settles O13: the step is the advance alone by `cycle_of_decode_unknown`, and the advance keeps FAULT. -/
theorem unknownWordIsANoOp : Obligations.UnknownWordIsANoOp := by
  intro s c hh hp hd
  have hcycle : cycle s = .next (s.advance, .unknown s.fetchWord) := cycle_of_decode_unknown hh hp hd
  have hstep : step s = .next s.advance := congrArg forgetStatus hcycle
  exact ⟨hcycle, hstep, hh⟩

end Sys2Proof.Machine

/-! SUPPORT. The framebuffer is the controller's alone (R92): another framebuffer passes through every instruction but CLS and
DRW, and CLS and LOAD answer the blank one. -/

namespace Sys2Proof.Machine

/-- No fault depends on the framebuffer (R160). -/
theorem raises_setFb (i : Instr) (s : State) (fb : Framebuffer) : raises i (s.setFb fb) = raises i s := by
  cases i <;> rfl

theorem State.consumeRand_setFb (s : State) (fb : Framebuffer) : (s.setFb fb).consumeRand = s.consumeRand.setFb fb := by
  unfold State.consumeRand
  rw [State.setFb_randIn]
  split <;> rfl

/-- Another framebuffer passes through the effect of an instruction outside the controller. -/
theorem effect_setFb {i : Instr} (hi : touchesFb i = false) (s : State) (fb : Framebuffer) :
    effect i (s.setFb fb) = (effect i s).setFb fb := by
  cases i
  case cls | drwVxVyN => cases hi
  case seVxKk | sneVxKk | seVxVy | sneVxVy | skpVx | sknpVx => simp only [effect, State.skipIf_eq_setPc]; rfl
  case ldVxK => simp only [effect_ldVxK]; rfl
  case rndVxKk x kk =>
    exact congrArg (State.setReg · x (s.rand &&& kk)) (s.advance.consumeRand_setFb fb)
  all_goals rfl

/-- With another framebuffer, an instruction outside the controller answers the same state with that framebuffer. -/
theorem exec_setFb {i : Instr} (hi : touchesFb i = false) {s t : State} (h : exec i s = .next t) (fb : Framebuffer) :
    exec i (s.setFb fb) = .next (t.setFb fb) := by
  obtain ⟨_, e, rfl⟩ :=
    exec_related (fun t t' => t' = t.setFb fb) (raises_setFb i s fb) (fun _ _ => rfl) (effect_setFb hi s fb) h
  exact e

/-- An instruction outside the controller keeps the framebuffer: passing the state's own through `exec_setFb` changes nothing. -/
theorem exec_fb {i : Instr} (hi : touchesFb i = false) {s t : State} (h : exec i s = .next t) : t.fb = s.fb := by
  have hown : t = t.setFb s.fb := Host.Outcome.next.inj (h.symm.trans (exec_setFb hi h s.fb))
  exact (congrArg State.fb hown).trans (t.setFb_fb s.fb)

/-- The machine LOAD builds has the blank framebuffer (R38, R190). -/
theorem loadWith_fb {font : Vector Byte 80} {rom : List Byte} {s : State} (h : loadWith font rom = .machine s) :
    s.fb = Framebuffer.blank := by
  unfold loadWith at h
  split at h
  · cases h
  · cases h; rfl

/-- Settles O49: other instructions keep the framebuffer and ignore it by `exec_fb` and `exec_setFb`, CLS overwrites it without
a look, and LOAD builds the blank one. -/
theorem framebufferIsTheControllersAlone : Obligations.FramebufferIsTheControllersAlone := by
  refine ⟨fun i s t fb hi h => ⟨exec_fb hi h, exec_setFb hi h fb⟩, fun s fb => rfl, fun font rom s h c r => ?_⟩
  rw [State.pixelAt, loadWith_fb h]
  exact Framebuffer.pixel_blank c r

end Sys2Proof.Machine

/-! SUPPORT. The fields of a word built from its class, x and kk (R71); the outcome of an instruction that writes one register
and no flag. -/

namespace Sys2Proof

/-! ### The fields of an encoded word -/

theorem classOf_wordXKk {c : Nat} (hc : c < 16) (x : Reg) (kk : Byte) : classOf (wordXKk c x kk) = c := by
  have := x.isLt; have := kk.isLt
  rw [classOf, toNat_wordXKk hc]; omega

theorem fieldX_wordXKk {c : Nat} (hc : c < 16) (x : Reg) (kk : Byte) : fieldX (wordXKk c x kk) = x := by
  have := x.isLt; have := kk.isLt
  apply Fin.ext
  rw [fieldX_val, toNat_wordXKk hc]; omega

theorem fieldKk_wordXKk {c : Nat} (hc : c < 16) (x : Reg) (kk : Byte) : fieldKk (wordXKk c x kk) = kk := by
  have := kk.isLt
  rw [fieldKk_eq_iff, toNat_wordXKk hc]; omega

/-- Class 0x6 has one member, so the class alone selects it (R74). -/
theorem decode_of_classOf_eq_six {w : Word} (h : classOf w = 0x6) : decode w = .known (.ldVxKk (fieldX w) (fieldKk w)) := by
  simp [decode, h]

/-- Class 0x7 has one member, so the class alone selects it (R74). -/
theorem decode_of_classOf_eq_seven {w : Word} (h : classOf w = 0x7) :
    decode w = .known (.addVxKk (fieldX w) (fieldKk w)) := by
  simp [decode, h]

theorem decode_wordXKk_six (x : Reg) (kk : Byte) : decode (wordXKk 0x6 x kk) = .known (.ldVxKk x kk) := by
  have hc : 0x6 < 16 := by decide
  rw [decode_of_classOf_eq_six (classOf_wordXKk hc x kk), fieldX_wordXKk hc, fieldKk_wordXKk hc]

theorem decode_wordXKk_seven (x : Reg) (kk : Byte) : decode (wordXKk 0x7 x kk) = .known (.addVxKk x kk) := by
  have hc : 0x7 < 16 := by decide
  rw [decode_of_classOf_eq_seven (classOf_wordXKk hc x kk), fieldX_wordXKk hc, fieldKk_wordXKk hc]

end Sys2Proof

namespace Sys2Proof.Machine

/-! ### One register written, no flag -/

/-- Advancing and writing one register changes nothing but PC and that register. -/
theorem frame_advance_setReg (s : State) (x : Reg) (b : Byte) :
    Frame { regs := fun r => r = x } s (s.advance.setReg x b) where
  regs _ hr := s.advance.setReg_reg_ne b hr
  i _ := rfl
  dt _ := rfl
  st _ := rfl
  stack _ := rfl
  fb _ := rfl
  key := rfl
  fault _ := rfl
  rand _ := ⟨rfl, rfl⟩
  mem _ _ := rfl

/-- An instruction whose effect is the advance and the write of one register, in the terms of a completion statement. -/
theorem exec_writes_one_register {i : Instr} {s : State} {x : Reg} {b : Byte}
    (h : exec i s = .next (s.advance.setReg x b)) :
    ∃ t, exec i s = .next t ∧ t.reg x = b ∧ t.pc = s.pc + 2 ∧ Frame { regs := fun r => r = x } s t :=
  ⟨_, h, s.advance.setReg_reg_same x b, rfl, frame_advance_setReg s x b⟩

/-- The sum truncated to 8 bits is the sum modulo 256 (R122). -/
theorem toNat_addResult (a b : Byte) : (addResult a b).toNat = (a.toNat + b.toNat) % 256 :=
  BitVec.toNat_ofNat _ _

/-- Settles O29: each word decodes by its class alone, and each effect writes Vx alone by `exec_writes_one_register`. -/
theorem byteLoadAndAdd : Obligations.ByteLoadAndAdd := by
  refine ⟨fun x kk => ⟨decode_wordXKk_six x kk, decode_wordXKk_seven x kk⟩, fun s x kk => ⟨?load, ?add⟩⟩
  case load => exact exec_writes_one_register (exec_eq (.ldVxKk x kk) s)
  case add =>
    obtain ⟨t, hexec, hreg, hpc, hframe⟩ := exec_writes_one_register (exec_eq (.addVxKk x kk) s)
    exact ⟨t, hexec, hreg ▸ toNat_addResult (s.reg x) kk, hpc, hframe⟩

end Sys2Proof.Machine

/-! SUPPORT. Class 0xF, keyed by kk (R74); the frame of a write of DT, and a timer at rest. -/

namespace Sys2Proof

/-! ### Words of class 0xF -/

/-- A word given as its match value, with x moved to bits 11:8, is the word built from its fields (R71). -/
theorem ofNat_add_eq_wordXKk {c m : Nat} {kk : Byte} (x : Reg) (hm : m = c * 4096 + kk.toNat) :
    BitVec.ofNat 16 (m + x.val * 256) = wordXKk c x kk := by
  rw [wordXKk, hm, Nat.add_right_comm]

/-- Class 0xF is left to its own decoder (R74). -/
theorem decode_of_classOf_eq_fifteen {w : Word} (h : classOf w = 0xF) : decode w = decodeClassF w := by
  simp [decode, h]

theorem decode_wordXKk_fifteen (x : Reg) (kk : Byte) : decode (wordXKk 0xF x kk) = decodeClassF (wordXKk 0xF x kk) :=
  decode_of_classOf_eq_fifteen (classOf_wordXKk (by decide) x kk)

theorem decode_wordXKk_ldVxDt (x : Reg) : decode (wordXKk 0xF x 0x07#8) = .known (.ldVxDt x) := by
  have hc : 0xF < 16 := by decide
  rw [decode_wordXKk_fifteen, decodeClassF, fieldKk_wordXKk hc, fieldX_wordXKk hc, if_pos rfl]

theorem decode_wordXKk_ldDtVx (x : Reg) : decode (wordXKk 0xF x 0x15#8) = .known (.ldDtVx x) := by
  have hc : 0xF < 16 := by decide
  rw [decode_wordXKk_fifteen, decodeClassF, fieldKk_wordXKk hc, fieldX_wordXKk hc, if_neg (by decide),
    if_neg (by decide), if_pos rfl]

end Sys2Proof

namespace Sys2Proof.Machine

/-! ### DT written -/

/-- Advancing and writing DT changes nothing but PC and DT. -/
theorem frame_advance_setDt (s : State) (b : Byte) : Frame { dt := True } s (s.advance.setDt b) where
  regs _ _ := rfl
  i _ := rfl
  dt h := absurd trivial h
  st _ := rfl
  stack _ := rfl
  fb _ := rfl
  key := rfl
  fault _ := rfl
  rand _ := ⟨rfl, rfl⟩
  mem _ _ := rfl

/-- The decrement saturates, so a delay timer at 0 stays there under a tick (R171). -/
theorem State.tickDt_dt_of_eq_zero {s : State} (h : s.dt = 0) : s.tickDt.dt = 0 := by
  rw [State.tickDt, State.setDt_dt, h]; rfl

/-- Settles O45: Fx07 writes Vx alone by `exec_writes_one_register`, Fx15 writes DT alone by `frame_advance_setDt`, and a timer
set to 0 is at rest by `State.tickDt_dt_of_eq_zero`. -/
theorem delayTimerReadAndSet : Obligations.DelayTimerReadAndSet := by
  refine ⟨fun x => ⟨?decodeRead, ?decodeSet⟩, fun s x => ⟨?read, ?set⟩⟩
  case decodeRead => rw [ofNat_add_eq_wordXKk (c := 0xF) (m := 0xF007) (kk := 0x07#8) x rfl, decode_wordXKk_ldVxDt]
  case decodeSet => rw [ofNat_add_eq_wordXKk (c := 0xF) (m := 0xF015) (kk := 0x15#8) x rfl, decode_wordXKk_ldDtVx]
  case read => exact exec_writes_one_register (exec_eq (.ldVxDt x) s)
  case set =>
    exact ⟨s.advance.setDt (s.reg x), exec_eq (.ldDtVx x) s, rfl, rfl, frame_advance_setDt s (s.reg x),
      fun hx => State.tickDt_dt_of_eq_zero hx⟩

end Sys2Proof.Machine

/-! SUPPORT. What LOAD answers, and the ROM bytes in the memory it builds (R190, R191). -/

namespace Sys2Proof.Machine

/-- LOAD builds a machine exactly for a ROM that fits, and that machine is the reset state over the loaded memory. -/
theorem loadWith_eq_machine_iff {font : Vector Byte 80} {rom : List Byte} {s : State} :
    loadWith font rom = .machine s ↔
      rom.length ≤ Config.romMax ∧ s = State.reset.setMem (loadedMemory font rom) := by
  rw [loadWith]
  split
  case isTrue hbig => exact ⟨fun h => (nomatch h), fun ⟨hfits, _⟩ => absurd hfits (Nat.not_le.mpr hbig)⟩
  case isFalse hfits =>
    exact ⟨fun h => ⟨Nat.le_of_not_lt hfits, (LoadResult.machine.inj h).symm⟩, fun ⟨_, hs⟩ => congrArg _ hs.symm⟩

/-- The ROM is copied last, and stands whole from 0x200 on. -/
theorem loadedMemory_read_rom (font : Vector Byte 80) {rom : List Byte} (hfits : rom.length ≤ Config.romMax) {k : Nat}
    (hk : k < rom.length) : (loadedMemory font rom).read (Config.romBase + k) = rom[k] := by
  have hspace : Config.romBase + rom.length ≤ Config.memSize := Nat.add_le_add_left hfits Config.romBase
  rw [loadedMemory, Memory.read_writeBytes _ _ _ _ hspace,
    if_pos ⟨Nat.le_add_right _ _, Nat.add_lt_add_left hk _⟩, Nat.add_sub_cancel_left, List.getElem?_eq_getElem hk,
    Option.getD_some]

/-- Settles O2: by `loadWith_eq_machine_iff` the machine is the reset state, which runs at PC 0x200, over the loaded memory, and
by `loadedMemory_read_rom` the two bytes its fetch reads there are the ROM's first two. -/
theorem loadEntersAtTheFirstRomByte : Obligations.LoadEntersAtTheFirstRomByte := by
  intro font b1 b2 rest s h
  obtain ⟨hfits, rfl⟩ := loadWith_eq_machine_iff.mp h
  have hfirst : (loadedMemory font (b1 :: b2 :: rest)).read 0x200 = b1 :=
    loadedMemory_read_rom font hfits (k := 0) (by simp)
  have hsecond : (loadedMemory font (b1 :: b2 :: rest)).read 0x201 = b2 :=
    loadedMemory_read_rom font hfits (k := 1) (by simp)
  exact ⟨rfl, hfirst, congrArg₂ wordOfBytes hfirst hsecond, not_not_intro rfl⟩

end Sys2Proof.Machine

/-! SUPPORT. The decoder row by row: a word decodes to an instruction exactly when that instruction's row selects it and its
fields are the operands (R71 to R78). The statements about encodings all follow from this. -/

namespace Sys2Proof

/-! ### The fields of the words the encoder builds -/

theorem classOf_wordNnn {c : Nat} {a : Word} (hc : c < 16) (ha : a.toNat < 4096) : classOf (wordNnn c a) = c := by
  rw [classOf, toNat_wordNnn hc ha]; omega

theorem fieldNnn_wordNnn {c : Nat} {a : Word} (hc : c < 16) (ha : a.toNat < 4096) : fieldNnn (wordNnn c a) = a := by
  apply BitVec.eq_of_toNat_eq
  rw [toNat_fieldNnn, toNat_wordNnn hc ha]; omega

theorem classOf_wordXYN {c n : Nat} (hc : c < 16) (hn : n < 16) (x y : Reg) : classOf (wordXYN c x y n) = c := by
  have := x.isLt; have := y.isLt
  rw [classOf, toNat_wordXYN hc hn]; omega

theorem fieldX_wordXYN {c n : Nat} (hc : c < 16) (hn : n < 16) (x y : Reg) : fieldX (wordXYN c x y n) = x := by
  have := x.isLt; have := y.isLt
  apply Fin.ext
  rw [fieldX_val, toNat_wordXYN hc hn]; omega

theorem fieldY_wordXYN {c n : Nat} (hc : c < 16) (hn : n < 16) (x y : Reg) : fieldY (wordXYN c x y n) = y := by
  have := x.isLt; have := y.isLt
  apply Fin.ext
  rw [fieldY_val, toNat_wordXYN hc hn]; omega

theorem fieldN_wordXYN {c n : Nat} (hc : c < 16) (hn : n < 16) (x y : Reg) : fieldN (wordXYN c x y n) = n := by
  have := x.isLt; have := y.isLt
  rw [fieldN, toNat_wordXYN hc hn]; omega

/-! ### A word put together again from its class and fields -/

theorem wordNnn_fields {c : Nat} {w : Word} (h : classOf w = c) : wordNnn c (fieldNnn w) = w := by
  have := w.isLt
  apply BitVec.eq_of_toNat_eq
  rw [classOf] at h
  rw [wordNnn, BitVec.toNat_ofNat, toNat_fieldNnn]; omega

theorem wordXKk_fields {c : Nat} {w : Word} (h : classOf w = c) : wordXKk c (fieldX w) (fieldKk w) = w := by
  have := w.isLt
  apply BitVec.eq_of_toNat_eq
  rw [classOf] at h
  rw [wordXKk, BitVec.toNat_ofNat, toNat_fieldKk, fieldX_val]; omega

theorem wordXYN_fields {c : Nat} {w : Word} (h : classOf w = c) :
    wordXYN c (fieldX w) (fieldY w) (fieldN w) = w := by
  have := w.isLt
  apply BitVec.eq_of_toNat_eq
  rw [classOf] at h
  rw [wordXYN, BitVec.toNat_ofNat, fieldX_val, fieldY_val, fieldN]; omega

/-! ### What each shape of row selects -/

/-- A row keyed by the class alone (R75). -/
theorem selects_F000_iff {c : Nat} {bits w : Word} (hb : bits.toNat = c * 4096) :
    OpcodeRow.selects ⟨bits, 0xF000⟩ w ↔ classOf w = c := by
  rw [OpcodeRow.selects_iff, classOf]
  show (w &&& 0xF000#16).toNat = _ ↔ _
  rw [toNat_and_F000, hb]; omega

/-- A row keyed by class and kk (R75). -/
theorem selects_F0FF_iff {c : Nat} {bits w : Word} (kk : Byte) (hb : bits.toNat = c * 4096 + kk.toNat) :
    OpcodeRow.selects ⟨bits, 0xF0FF⟩ w ↔ classOf w = c ∧ fieldKk w = kk := by
  have := kk.isLt
  rw [OpcodeRow.selects_iff, classOf, fieldKk_eq_iff]
  show (w &&& 0xF0FF#16).toNat = _ ↔ _
  rw [toNat_and_F0FF, hb]; omega

/-- A row keyed by class and n (R75). -/
theorem selects_F00F_iff {c n : Nat} {bits w : Word} (hn : n < 16) (hb : bits.toNat = c * 4096 + n) :
    OpcodeRow.selects ⟨bits, 0xF00F⟩ w ↔ classOf w = c ∧ fieldN w = n := by
  rw [OpcodeRow.selects_iff, classOf, fieldN]
  show (w &&& 0xF00F#16).toNat = _ ↔ _
  rw [toNat_and_F00F, hb]; omega

/-! ### The instruction of a row with the operands of a word -/

/-- The instruction of `i`'s row with its operands taken from the fields of `w` (R71 to R73). -/
def Instr.withFields (w : Word) : Instr → Instr
  | .cls => .cls
  | .ret => .ret
  | .jpNnn _ => .jpNnn (fieldNnn w)
  | .callNnn _ => .callNnn (fieldNnn w)
  | .seVxKk _ _ => .seVxKk (fieldX w) (fieldKk w)
  | .sneVxKk _ _ => .sneVxKk (fieldX w) (fieldKk w)
  | .seVxVy _ _ => .seVxVy (fieldX w) (fieldY w)
  | .ldVxKk _ _ => .ldVxKk (fieldX w) (fieldKk w)
  | .addVxKk _ _ => .addVxKk (fieldX w) (fieldKk w)
  | .ldVxVy _ _ => .ldVxVy (fieldX w) (fieldY w)
  | .orVxVy _ _ => .orVxVy (fieldX w) (fieldY w)
  | .andVxVy _ _ => .andVxVy (fieldX w) (fieldY w)
  | .xorVxVy _ _ => .xorVxVy (fieldX w) (fieldY w)
  | .addVxVy _ _ => .addVxVy (fieldX w) (fieldY w)
  | .subVxVy _ _ => .subVxVy (fieldX w) (fieldY w)
  | .shrVx _ => .shrVx (fieldX w)
  | .subnVxVy _ _ => .subnVxVy (fieldX w) (fieldY w)
  | .shlVx _ => .shlVx (fieldX w)
  | .sneVxVy _ _ => .sneVxVy (fieldX w) (fieldY w)
  | .ldINnn _ => .ldINnn (fieldNnn w)
  | .jpV0Nnn _ => .jpV0Nnn (fieldNnn w)
  | .rndVxKk _ _ => .rndVxKk (fieldX w) (fieldKk w)
  | .drwVxVyN _ _ _ => .drwVxVyN (fieldX w) (fieldY w) (fieldN w)
  | .skpVx _ => .skpVx (fieldX w)
  | .sknpVx _ => .sknpVx (fieldX w)
  | .ldVxDt _ => .ldVxDt (fieldX w)
  | .ldVxK _ => .ldVxK (fieldX w)
  | .ldDtVx _ => .ldDtVx (fieldX w)
  | .ldStVx _ => .ldStVx (fieldX w)
  | .addIVx _ => .addIVx (fieldX w)
  | .ldFVx _ => .ldFVx (fieldX w)
  | .ldBVx _ => .ldBVx (fieldX w)
  | .ldMemVx _ => .ldMemVx (fieldX w)
  | .ldVxMem _ => .ldVxMem (fieldX w)

@[simp] theorem Instr.row_withFields (w : Word) (i : Instr) : (i.withFields w).row = i.row := by
  cases i <;> rfl

/-- Which class, and in a class with more than one member which sub-field, each row selects (R74, R75). -/
def Instr.dispatchKey : Instr → Word → Prop
  | .cls, w => classOf w = 0x0 ∧ fieldKk w = 0xE0#8
  | .ret, w => classOf w = 0x0 ∧ fieldKk w = 0xEE#8
  | .jpNnn _, w => classOf w = 0x1
  | .callNnn _, w => classOf w = 0x2
  | .seVxKk _ _, w => classOf w = 0x3
  | .sneVxKk _ _, w => classOf w = 0x4
  | .seVxVy _ _, w => classOf w = 0x5
  | .ldVxKk _ _, w => classOf w = 0x6
  | .addVxKk _ _, w => classOf w = 0x7
  | .ldVxVy _ _, w => classOf w = 0x8 ∧ fieldN w = 0x0
  | .orVxVy _ _, w => classOf w = 0x8 ∧ fieldN w = 0x1
  | .andVxVy _ _, w => classOf w = 0x8 ∧ fieldN w = 0x2
  | .xorVxVy _ _, w => classOf w = 0x8 ∧ fieldN w = 0x3
  | .addVxVy _ _, w => classOf w = 0x8 ∧ fieldN w = 0x4
  | .subVxVy _ _, w => classOf w = 0x8 ∧ fieldN w = 0x5
  | .shrVx _, w => classOf w = 0x8 ∧ fieldN w = 0x6
  | .subnVxVy _ _, w => classOf w = 0x8 ∧ fieldN w = 0x7
  | .shlVx _, w => classOf w = 0x8 ∧ fieldN w = 0xE
  | .sneVxVy _ _, w => classOf w = 0x9
  | .ldINnn _, w => classOf w = 0xA
  | .jpV0Nnn _, w => classOf w = 0xB
  | .rndVxKk _ _, w => classOf w = 0xC
  | .drwVxVyN _ _ _, w => classOf w = 0xD
  | .skpVx _, w => classOf w = 0xE ∧ fieldKk w = 0x9E#8
  | .sknpVx _, w => classOf w = 0xE ∧ fieldKk w = 0xA1#8
  | .ldVxDt _, w => classOf w = 0xF ∧ fieldKk w = 0x07#8
  | .ldVxK _, w => classOf w = 0xF ∧ fieldKk w = 0x0A#8
  | .ldDtVx _, w => classOf w = 0xF ∧ fieldKk w = 0x15#8
  | .ldStVx _, w => classOf w = 0xF ∧ fieldKk w = 0x18#8
  | .addIVx _, w => classOf w = 0xF ∧ fieldKk w = 0x1E#8
  | .ldFVx _, w => classOf w = 0xF ∧ fieldKk w = 0x29#8
  | .ldBVx _, w => classOf w = 0xF ∧ fieldKk w = 0x33#8
  | .ldMemVx _, w => classOf w = 0xF ∧ fieldKk w = 0x55#8
  | .ldVxMem _, w => classOf w = 0xF ∧ fieldKk w = 0x65#8

theorem selects_iff_dispatchKey (i : Instr) (w : Word) : i.row.selects w ↔ i.dispatchKey w := by
  cases i
  case cls | ret => exact selects_F0FF_iff _ rfl
  case skpVx | sknpVx => exact selects_F0FF_iff _ rfl
  case ldVxDt | ldVxK | ldDtVx | ldStVx | addIVx | ldFVx | ldBVx | ldMemVx | ldVxMem => exact selects_F0FF_iff _ rfl
  case ldVxVy | orVxVy | andVxVy | xorVxVy | addVxVy | subVxVy | shrVx | subnVxVy | shlVx =>
    exact selects_F00F_iff (by decide) rfl
  all_goals exact selects_F000_iff rfl

/-! ### The decoder -/

/-- A word with a row's dispatch key decodes to that row's instruction, its operands the word's fields (R71 to R76). -/
theorem decode_of_dispatchKey {i : Instr} {w : Word} (h : i.dispatchKey w) : decode w = .known (i.withFields w) := by
  cases i
  case cls | ret => simp [decode, decodeClass0, h.1, h.2, Instr.withFields]
  case ldVxVy | orVxVy | andVxVy | xorVxVy | addVxVy | subVxVy | shrVx | subnVxVy | shlVx =>
    simp [decode, decodeClass8, h.1, h.2, Instr.withFields]
  case skpVx | sknpVx => simp [decode, decodeClassE, h.1, h.2, Instr.withFields]
  case ldVxDt | ldVxK | ldDtVx | ldStVx | addIVx | ldFVx | ldBVx | ldMemVx | ldVxMem =>
    simp [decode, decodeClassF, h.1, h.2, Instr.withFields]
  all_goals simp [decode, show classOf w = _ from h, Instr.withFields]

theorem decode_of_selects {i : Instr} {w : Word} (h : i.row.selects w) : decode w = .known (i.withFields w) :=
  decode_of_dispatchKey ((selects_iff_dispatchKey i w).mp h)

/-- Class 0xF is what the other fifteen classes leave (R71). -/
theorem classOf_eq_fifteen {w : Word} (h : 15 ≤ classOf w) : classOf w = 0xF := by
  have := w.isLt
  rw [classOf] at h ⊢; omega

theorem decodeClass0_eq_known {w : Word} {i : Instr} (hc : classOf w = 0x0) (h : decodeClass0 w = .known i) :
    i.dispatchKey w ∧ i.withFields w = i := by
  unfold decodeClass0 at h
  split_ifs at h <;> cases h <;> exact ⟨⟨hc, ‹_›⟩, rfl⟩

theorem decodeClass8_eq_known {w : Word} {i : Instr} (hc : classOf w = 0x8) (h : decodeClass8 w = .known i) :
    i.dispatchKey w ∧ i.withFields w = i := by
  unfold decodeClass8 at h
  split_ifs at h <;> cases h <;> exact ⟨⟨hc, ‹_›⟩, rfl⟩

theorem decodeClassE_eq_known {w : Word} {i : Instr} (hc : classOf w = 0xE) (h : decodeClassE w = .known i) :
    i.dispatchKey w ∧ i.withFields w = i := by
  unfold decodeClassE at h
  split_ifs at h <;> cases h <;> exact ⟨⟨hc, ‹_›⟩, rfl⟩

theorem decodeClassF_eq_known {w : Word} {i : Instr} (hc : classOf w = 0xF) (h : decodeClassF w = .known i) :
    i.dispatchKey w ∧ i.withFields w = i := by
  unfold decodeClassF at h
  split_ifs at h <;> cases h <;> exact ⟨⟨hc, ‹_›⟩, rfl⟩

/-- A word that decodes to an instruction has that instruction's dispatch key and operands: the classes 0x0 to 0xF in turn,
0x0, 0x8, 0xE and 0xF with a decoder of their own (R74 to R76). -/
theorem dispatchKey_of_decode {w : Word} {i : Instr} : decode w = .known i → i.dispatchKey w ∧ i.withFields w = i := by
  unfold decode
  refine iteInduction (motive := (· = _ → _)) decodeClass0_eq_known fun _ => ?_
  iterate 7 refine iteInduction (motive := (· = _ → _)) (fun hc h => by cases h; exact ⟨hc, rfl⟩) fun _ => ?_
  refine iteInduction (motive := (· = _ → _)) decodeClass8_eq_known fun _ => ?_
  iterate 5 refine iteInduction (motive := (· = _ → _)) (fun hc h => by cases h; exact ⟨hc, rfl⟩) fun _ => ?_
  refine iteInduction (motive := (· = _ → _)) decodeClassE_eq_known fun _ => ?_
  exact decodeClassF_eq_known (classOf_eq_fifteen (by omega))

/-- What the decoder answers, said once: the instruction whose row selects the word, with the word's fields (R71 to R78). -/
theorem decode_eq_known_iff {w : Word} {i : Instr} :
    decode w = .known i ↔ i.row.selects w ∧ i.withFields w = i := by
  constructor
  · intro h
    rw [selects_iff_dispatchKey]
    exact dispatchKey_of_decode h
  · rintro ⟨hrow, hi⟩
    rw [decode_of_selects hrow, hi]

/-- Settles O10: a word both rows select has one decoding, which stands for both. -/
theorem opcodeRowsAreDisjoint : Obligations.OpcodeRowsAreDisjoint := by
  intro i j w hi hj
  have hij : i.withFields w = j.withFields w :=
    Decoded.known.inj ((decode_of_selects hi).symm.trans (decode_of_selects hj))
  rw [← i.row_withFields w, hij, j.row_withFields]

/-- Settles O8: a selected word is decoded by `decode_of_selects`, and a decoded word is selected by `decode_eq_known_iff`. -/
theorem unknownWordsAreThoseNoRowSelects : Obligations.UnknownWordsAreThoseNoRowSelects := by
  intro w
  constructor
  · rintro ⟨c, hc⟩ i hi
    rw [decode_of_selects hi] at hc
    cases hc
  · intro hnone
    cases hd : decode w with
    | unknown c => exact ⟨c, rfl⟩
    | known i => exact absurd (decode_eq_known_iff.mp hd).1 (hnone i)

end Sys2Proof

namespace Sys2Proof.Machine

/-! ### Encoding and decoding -/

/-- The word the encoder gives a well-formed instruction is in its row (R75). -/
theorem encode_selects {i : Instr} (h : i.wellFormed = true) : i.row.selects (encode i) := by
  cases i
  case cls => exact Laws.EncodesInRow.cls h
  case ret => exact Laws.EncodesInRow.ret h
  case jpNnn | callNnn | ldINnn | jpV0Nnn => exact Laws.EncodesInRow.nnn_row (by decide) (of_decide_eq_true h) rfl
  case seVxKk | sneVxKk | ldVxKk | addVxKk | rndVxKk => exact Laws.EncodesInRow.xkk_row (by decide) _ _ rfl
  case seVxVy | sneVxVy => exact Laws.EncodesInRow.xyn_row (by decide) (by decide) _ _ rfl
  case drwVxVyN => exact Laws.EncodesInRow.xyn_row (by decide) (of_decide_eq_true h) _ _ rfl
  case ldVxVy | orVxVy | andVxVy | xorVxVy | addVxVy | subVxVy | shrVx | subnVxVy | shlVx =>
    exact Laws.EncodesInRow.n_row (by decide) (by decide) _ _ rfl
  all_goals exact Laws.EncodesInRow.kk_row (by decide) _ _ rfl

/-- The fields of the word the encoder gives a well-formed instruction are its operands (R71 to R73). -/
theorem withFields_encode {i : Instr} (h : i.wellFormed = true) : i.withFields (encode i) = i := by
  cases i
  case cls | ret => rfl
  case jpNnn | callNnn | ldINnn | jpV0Nnn =>
    rw [Instr.withFields, encode, fieldNnn_wordNnn (by decide) (of_decide_eq_true h)]
  case seVxKk | sneVxKk | ldVxKk | addVxKk | rndVxKk =>
    rw [Instr.withFields, encode, fieldX_wordXKk (by decide), fieldKk_wordXKk (by decide)]
  case drwVxVyN =>
    have hn := of_decide_eq_true h
    rw [Instr.withFields, encode, fieldX_wordXYN (by decide) hn, fieldY_wordXYN (by decide) hn,
      fieldN_wordXYN (by decide) hn]
  case shrVx | shlVx => rw [Instr.withFields, encode, fieldX_wordXYN (by decide) (by decide)]
  case seVxVy | sneVxVy | ldVxVy | orVxVy | andVxVy | xorVxVy | addVxVy | subVxVy | subnVxVy =>
    rw [Instr.withFields, encode, fieldX_wordXYN (by decide) (by decide), fieldY_wordXYN (by decide) (by decide)]
  all_goals rw [Instr.withFields, encode, fieldX_wordXKk (by decide)]

/-- Settles O6: the encoding lies in the instruction's row by `encode_selects`, and its fields are the operands by
`withFields_encode`. -/
theorem decodeOfEncodeIsTheInstruction : Obligations.DecodeOfEncodeIsTheInstruction :=
  fun _ h => decode_eq_known_iff.mpr ⟨encode_selects h, withFields_encode h⟩

/-! ### The used bits -/

/-- The bits a row compares are among the used ones (R77). -/
theorem mask_and_usedBits (i : Instr) : usedBits i &&& i.row.mask = i.row.mask := by
  cases i <;> simp only [usedBits, Instr.row] <;> decide

/-- Words that agree on the used bits are selected alike. -/
theorem selects_congr {i : Instr} {w w' : Word} (h : w &&& usedBits i = w' &&& usedBits i) (hw : i.row.selects w) :
    i.row.selects w' := by
  calc w' &&& i.row.mask = w' &&& usedBits i &&& i.row.mask := by rw [BitVec.and_assoc, mask_and_usedBits]
    _ = w &&& i.row.mask := by rw [← h, BitVec.and_assoc, mask_and_usedBits]
    _ = i.row.bits := hw

/-- A word with every bit used is its masked self. -/
theorem and_FFFF (w : Word) : w &&& 0xFFFF#16 = w := BitVec.and_allOnes

/-- Words that agree on the used bits hold the same operands. -/
theorem withFields_congr {i : Instr} {w w' : Word} (h : w &&& usedBits i = w' &&& usedBits i) :
    i.withFields w = i.withFields w' := by
  cases i
  case cls | ret => rfl
  case seVxVy | sneVxVy =>
    have hn : w.toNat / 16 * 16 = w'.toNat / 16 * 16 := by
      rw [← toNat_and_FFF0, ← toNat_and_FFF0]; exact congrArg BitVec.toNat h
    have hx : fieldX w = fieldX w' := Fin.ext (by rw [fieldX_val, fieldX_val]; omega)
    have hy : fieldY w = fieldY w' := Fin.ext (by rw [fieldY_val, fieldY_val]; omega)
    rw [Instr.withFields, Instr.withFields, hx, hy]
  case shrVx | shlVx =>
    have hn : w.toNat / 256 * 256 + w.toNat % 16 = w'.toNat / 256 * 256 + w'.toNat % 16 := by
      rw [← toNat_and_FF0F, ← toNat_and_FF0F]; exact congrArg BitVec.toNat h
    have hx : fieldX w = fieldX w' := Fin.ext (by rw [fieldX_val, fieldX_val]; omega)
    rw [Instr.withFields, Instr.withFields, hx]
  all_goals
    have hw : w = w' := by rw [← and_FFFF w, ← and_FFFF w']; exact h
    rw [hw]

/-- The encoding of the instruction a word decodes to agrees with the word on the used bits (R77). -/
theorem encode_withFields {i : Instr} {w : Word} (h : i.dispatchKey w) :
    encode (i.withFields w) &&& usedBits i = w &&& usedBits i := by
  cases i
  case cls => exact (encode_selects (i := .cls) rfl).trans ((selects_iff_dispatchKey .cls w).mpr h).symm
  case ret => exact (encode_selects (i := .ret) rfl).trans ((selects_iff_dispatchKey .ret w).mpr h).symm
  case seVxVy | sneVxVy =>
    refine BitVec.eq_of_toNat_eq ((toNat_and_FFF0 _).trans (Eq.trans ?_ (toNat_and_FFF0 w).symm))
    have hc := show w.toNat / 4096 = _ from h
    rw [Instr.withFields, encode, toNat_wordXYN (by decide) (by decide), fieldX_val, fieldY_val]
    omega
  case shrVx | shlVx =>
    refine BitVec.eq_of_toNat_eq ((toNat_and_FF0F _).trans (Eq.trans ?_ (toNat_and_FF0F w).symm))
    have hc := show w.toNat / 4096 = _ from h.1
    have hn := show w.toNat % 16 = _ from h.2
    rw [Instr.withFields, encode, toNat_wordXYN (by decide) (by decide), fieldX_val]
    simp only [Fin.val_zero]
    omega
  all_goals refine congrArg (· &&& _) ?_
  case jpNnn | callNnn | ldINnn | jpV0Nnn => exact wordNnn_fields h
  case seVxKk | sneVxKk | ldVxKk | addVxKk | rndVxKk => exact wordXKk_fields h
  case drwVxVyN => exact wordXYN_fields h
  case ldVxVy | orVxVy | andVxVy | xorVxVy | addVxVy | subVxVy | subnVxVy =>
    rw [Instr.withFields, encode, ← h.2]; exact wordXYN_fields h.1
  all_goals rw [Instr.withFields, encode, ← h.2]; exact wordXKk_fields h.1

/-- Settles O7: by `decode_eq_known_iff` the decoder compares the row's bits and reads the operand fields, and on the used bits a
word and the encoding of its instruction agree by `encode_withFields`, so one may stand for the other in both. -/
theorem decoderReadsExactlyTheUsedBits : Obligations.DecoderReadsExactlyTheUsedBits := by
  intro w i
  constructor
  · intro h
    obtain ⟨hkey, hi⟩ := dispatchKey_of_decode h
    have hused := encode_withFields hkey
    rw [hi] at hused
    exact ⟨decode_wellFormed w i h, hused.symm⟩
  · rintro ⟨hwf, hused⟩
    exact decode_eq_known_iff.mpr
      ⟨selects_congr hused.symm (encode_selects hwf), (withFields_congr hused).trans (withFields_encode hwf)⟩

/-! ### The unknown words -/

theorem decodeClass0_eq_unknown_iff {w : Word} {c : UnknownClass} :
    decodeClass0 w = .unknown c ↔ .class0 = c ∧ w.toNat % 256 ≠ 0xE0 ∧ w.toNat % 256 ≠ 0xEE := by
  simp only [decodeClass0, fieldKk_eq_iff]
  split_ifs <;> simp_all

theorem decodeClass8_eq_unknown_iff {w : Word} {c : UnknownClass} :
    decodeClass8 w = .unknown c ↔ .class8 = c ∧ w.toNat % 16 ∈ [0x8, 0x9, 0xA, 0xB, 0xC, 0xD, 0xF] := by
  unfold decodeClass8 fieldN
  split_ifs <;> simp_all
  omega

theorem decodeClassE_eq_unknown_iff {w : Word} {c : UnknownClass} :
    decodeClassE w = .unknown c ↔ .classE = c ∧ w.toNat % 256 ≠ 0x9E ∧ w.toNat % 256 ≠ 0xA1 := by
  simp only [decodeClassE, fieldKk_eq_iff]
  split_ifs <;> simp_all

theorem decodeClassF_eq_unknown_iff {w : Word} {c : UnknownClass} :
    decodeClassF w = .unknown c ↔
      .classF = c ∧ w.toNat % 256 ∉ [0x07, 0x0A, 0x15, 0x18, 0x1E, 0x29, 0x33, 0x55, 0x65] := by
  simp only [decodeClassF, fieldKk_eq_iff]
  split_ifs <;> simp_all

/-- An unknown word is one its class's decoder finds unknown; only the classes 0x0, 0x8, 0xE and 0xF have a decoder (R78). -/
theorem decode_eq_unknown_iff {w : Word} {c : UnknownClass} :
    decode w = .unknown c ↔
      (classOf w = 0x0 ∧ decodeClass0 w = .unknown c) ∨ (classOf w = 0x8 ∧ decodeClass8 w = .unknown c) ∨
      (classOf w = 0xE ∧ decodeClassE w = .unknown c) ∨ (classOf w = 0xF ∧ decodeClassF w = .unknown c) := by
  constructor
  · unfold decode
    refine iteInduction (motive := (· = _ → _)) (fun hc h => .inl ⟨hc, h⟩) fun _ => ?_
    iterate 7 refine iteInduction (motive := (· = _ → _)) (fun _ h => nomatch h) fun _ => ?_
    refine iteInduction (motive := (· = _ → _)) (fun hc h => .inr (.inl ⟨hc, h⟩)) fun _ => ?_
    iterate 5 refine iteInduction (motive := (· = _ → _)) (fun _ h => nomatch h) fun _ => ?_
    refine iteInduction (motive := (· = _ → _)) (fun hc h => .inr (.inr (.inl ⟨hc, h⟩))) fun _ h => ?_
    exact .inr (.inr (.inr ⟨classOf_eq_fifteen (by omega), h⟩))
  · rintro (⟨hc, h⟩ | ⟨hc, h⟩ | ⟨hc, h⟩ | ⟨hc, h⟩) <;> simp [decode, hc, h]

/-- Settles O9: an unknown word is found by its class's decoder, which names its own class. -/
theorem unknownWordsByClass : Obligations.UnknownWordsByClass := by
  intro w
  simp only [decode_eq_unknown_iff, decodeClass0_eq_unknown_iff, decodeClass8_eq_unknown_iff,
    decodeClassE_eq_unknown_iff, decodeClassF_eq_unknown_iff, classOf]
  simp

/-- Settles O11: each word is decoded by evaluation. -/
theorem sampleWordsDecode : Obligations.SampleWordsDecode := by
  unfold Obligations.SampleWordsDecode
  decide

end Sys2Proof.Machine

/-! SUPPORT. The invariant of R39: what the effect of an instruction and the fault it may raise do to each of its clauses, and so
what one step and each operation of the host do. -/

namespace Sys2Proof.Machine

/-! ### What an effect does to the stack and to PC -/

/-- The call stack after an effect: as it was, popped by RET, or with the return address pushed by CALL (R28, R101, R103). -/
theorem effect_stack (i : Instr) (s : State) :
    (touchesStack i = false ∧ (effect i s).stack = s.stack) ∨ (i = .ret ∧ (effect i s).stack = s.stack.tail) ∨
      ∃ a, i = .callNnn a ∧ (effect i s).stack = (s.pc + 2) :: s.stack := by
  cases i
  case ret => exact .inr (.inl ⟨rfl, rfl⟩)
  case callNnn a => exact .inr (.inr ⟨a, rfl, rfl⟩)
  all_goals refine .inl ⟨rfl, ?_⟩
  case ldVxK => rw [effect_ldVxK]; rfl
  case rndVxKk => exact s.advance.consumeRand_stack
  case seVxKk | sneVxKk | seVxVy | sneVxVy | skpVx | sknpVx => exact s.advance.skipIf_stack _
  all_goals rfl

/-- A skip leaves PC at the next word or the one after it (R100). -/
theorem skipIf_pc_bound {s : State} (hpc : s.pc.toNat ≤ 0xFFE) (b : Bool) : (s.advance.skipIf b).pc.toNat ≤ 0x10FE := by
  have h2 : (s.pc + 2).toNat = s.pc.toNat + 2 := toNat_add_two (by omega)
  have h4 : (s.pc + 2 + 2).toNat = (s.pc + 2).toNat + 2 := toNat_add_two (by omega)
  rw [State.skipIf_pc, State.advance_pc]
  split <;> omega

/-- The target of JP V0 is not reduced, and stays below 0x10FF (R108). -/
theorem toNat_indexedTarget {a : Word} (ha : a.toNat ≤ 0xFFF) (b : Byte) :
    (indexedTarget a b).toNat = a.toNat + b.toNat := by
  have := b.isLt
  rw [indexedTarget, BitVec.toNat_ofNat]; omega

/-- From an accepted fetch, and with return addresses in range, a decodable instruction leaves PC at most 0x10FE (R39). -/
theorem effect_pc_bound {i : Instr} {s : State} (hwf : i.wellFormed = true) (hpc : s.pc.toNat ≤ 0xFFE)
    (hentries : ∀ e ∈ s.stack, e.toNat ≤ 0x1000) : (effect i s).pc.toNat ≤ 0x10FE := by
  have hnext : (s.pc + 2).toNat = s.pc.toNat + 2 := toNat_add_two (by omega)
  cases i
  case ret =>
    show (s.stack.headD 0).toNat ≤ _
    cases hs : s.stack with
    | nil => decide
    | cons w rest => exact (hentries w (hs ▸ List.mem_cons_self)).trans (by decide)
  case jpNnn a | callNnn a =>
    have : a.toNat < 0x1000 := of_decide_eq_true hwf
    show a.toNat ≤ _
    omega
  case jpV0Nnn a =>
    have : a.toNat < 0x1000 := of_decide_eq_true hwf
    have := (s.reg v0).isLt
    show (indexedTarget a (s.reg v0)).toNat ≤ _
    rw [toNat_indexedTarget (by omega)]; omega
  case seVxKk | sneVxKk | seVxVy | sneVxVy | skpVx | sknpVx => exact skipIf_pc_bound hpc _
  case ldVxK =>
    rw [effect_ldVxK, State.setPc_pc]
    split <;> omega
  case rndVxKk =>
    show s.advance.consumeRand.pc.toNat ≤ _
    rw [State.consumeRand_pc, State.advance_pc]; omega
  all_goals
    show (s.pc + 2).toNat ≤ _
    omega

/-! ### The faults raised -/

/-- The lowest address out of range, as FAULT.info holds it, is at least 0x1000 (R32, R164). -/
theorem toNat_lowestOutOfRange (w : Word) : 0x1000 ≤ (BitVec.ofNat 16 (max w.toNat 0x1000)).toNat := by
  have := w.isLt
  rw [BitVec.toNat_ofNat]; omega

/-- A fault an instruction raises has the info its code calls for (R32, R160). -/
theorem raises_legal {i : Instr} {s : State} {c : FaultCode} {w : Word} (pc : Word) (h : raises i s = some (c, w)) :
    FaultReg.legal ⟨c, pc, w⟩ := by
  have hrange : ∀ n, rangeFault s n = some (c, w) → FaultReg.legal ⟨c, pc, w⟩ := by
    intro n h
    unfold rangeFault at h
    split at h <;> cases h
    exact toNat_lowestOutOfRange s.i
  have hkey : ∀ k, keyFault k = some (c, w) → FaultReg.legal ⟨c, pc, w⟩ := by
    intro k h
    have := k.isLt
    unfold keyFault at h
    split at h <;> cases h
    show 0x10 ≤ (BitVec.ofNat 16 k.toNat).toNat ∧ (BitVec.ofNat 16 k.toNat).toNat ≤ 0xFF
    rw [BitVec.toNat_ofNat]; omega
  cases i
  case ret | callNnn =>
    simp only [raises] at h
    split at h <;> cases h
    rfl
  case drwVxVyN | ldBVx | ldMemVx | ldVxMem => exact hrange _ h
  case skpVx | sknpVx | ldVxK => exact hkey _ h
  all_goals cases h

/-! ### One step -/

/-- Fault entry keeps the invariant when the fault is legal: only FAULT changes, and its pc is PC (R161). -/
theorem State.Inv.withFault {s : State} (hs : s.Inv) {c : FaultCode} {w : Word} (h : FaultReg.legal ⟨c, s.pc, w⟩) :
    (s.withFault c w).Inv :=
  { hs with faultLegal := h, faultAtPc := fun _ => rfl }

/-- An effect from an accepted fetch keeps the invariant. -/
theorem State.Inv.after_effect {i : Instr} {s : State} (hs : s.Inv) (hrun : ¬ s.halted) (hwf : i.wellFormed = true)
    (hpc : s.pc.toNat ≤ 0xFFE) (hraise : raises i s = none) : (effect i s).Inv := by
  have hnext : (s.pc + 2).toNat = s.pc.toNat + 2 := toNat_add_two (by omega)
  have hstack : (effect i s).stack.length ≤ 16 ∧ ∀ e ∈ (effect i s).stack, e.toNat ≤ 0x1000 := by
    rcases effect_stack i s with ⟨-, e⟩ | ⟨rfl, e⟩ | ⟨a, rfl, e⟩ <;> rw [e]
    · exact ⟨hs.depth, hs.entries⟩
    · exact ⟨by have := hs.depth; rw [List.length_tail]; omega, fun w hw => hs.entries w (List.mem_of_mem_tail hw)⟩
    · have hroom : s.stack.length < 16 := by
        by_contra hfull
        rw [raises, if_pos (Nat.le_of_not_lt hfull)] at hraise
        cases hraise
      refine ⟨hroom, fun w hw => ?_⟩
      rcases List.mem_cons.mp hw with rfl | hw
      · omega
      · exact hs.entries w hw
  exact {
    memWf := by rw [effect_mem]; exact Memory.wf_writeBytes _ _ hs.memWf
    depth := hstack.1
    entries := hstack.2
    pcBound := effect_pc_bound hwf hpc hs.entries
    faultLegal := by rw [effect_fault]; exact hs.faultLegal
    faultAtPc := fun hh => absurd (by rwa [State.halted, effect_fault] at hh) hrun }

/-- Settles O58: of the four cases of a step, the halted one changes nothing, the others enter a legal fault, advance PC from an
accepted fetch, or run a decoded, hence well-formed, instruction. -/
theorem stepKeepsTheInvariant : Obligations.StepKeepsTheInvariant := by
  intro s t hs h
  rcases step_cases h with ⟨-, rfl⟩ | ⟨-, -, rfl⟩ | ⟨hrun, hpc, -, rfl⟩ | ⟨hrun, hpc, i, hd, he⟩
  · exact hs
  · exact hs.withFault (toNat_lowestOutOfRange s.pc)
  · refine { hs with pcBound := ?_, faultAtPc := fun hh => absurd hh hrun }
    rw [State.advance_pc, toNat_add_two (by omega)]; omega
  · rcases exec_cases he with ⟨hraise, rfl⟩ | ⟨c, w, hraise, -, rfl⟩
    · exact hs.after_effect hrun (decode_wellFormed _ i hd) hpc hraise
    · exact hs.withFault (raises_legal s.pc hraise)

/-! ### Reset, LOAD and the host's operations -/

/-- Settles O57: every clause at the reset values. -/
theorem invariantHoldsAtReset : Obligations.InvariantHoldsAtReset where
  memWf := State.reset_memWf
  depth := Nat.zero_le 16
  entries := List.forall_mem_nil _
  pcBound := by decide
  faultLegal := rfl
  faultAtPc _ := by contradiction

/-- LOAD changes only the memory of the reset state, and writes it (R190). -/
theorem loadWith_inv {font : Vector Byte 80} {rom : List Byte} {s : State} (h : loadWith font rom = .machine s) :
    s.Inv := by
  obtain ⟨-, rfl⟩ := loadWith_eq_machine_iff.mp h
  exact { invariantHoldsAtReset with
    memWf := Memory.wf_writeBytes _ _ (Memory.wf_writeBytes _ _ Memory.wf_nil) }

/-- STEP keeps the invariant, and no other operation touches what it speaks of (R171, R175). -/
theorem apply_inv {s t : State} {op : HostOp} (hs : s.Inv) (h : s.apply op = .next t) : t.Inv := by
  cases op with
  | step r => exact stepKeepsTheInvariant (s.presentRand r) t { hs with } h
  | tickDt | tickSt | setKeys => cases h; exact { hs with }

/-- Settles O59: LOAD by `loadWith_inv`, the operations by `apply_inv`, and the reachable states by induction over both. -/
theorem everyReachableStateMeetsTheInvariant : Obligations.EveryReachableStateMeetsTheInvariant := by
  refine ⟨fun _ _ _ => loadWith_inv, fun _ _ _ => apply_inv, fun s hs => ?_⟩
  induction hs with
  | load font rom s h => exact loadWith_inv h
  | apply s t op _ h ih => exact apply_inv ih h

end Sys2Proof.Machine

/-! SUPPORT. STEP forwards: in each of the four cases of R81 the answer of `cycle` and of `step`, beside what an earlier part says of
an unknown word. What a status says of the step, and a halted machine under any operations of the host, follow. -/

namespace Sys2Proof.Machine

/-! ### The four cases -/

/-- A halted machine does not step (R168). -/
theorem cycle_of_halted {s : State} (h : s.halted) : cycle s = .next (s, .halted s.fault.code) := by
  rw [cycle, if_pos h]

theorem step_of_halted {s : State} (h : s.halted) : step s = .next s :=
  congrArg forgetStatus (cycle_of_halted h)

/-- A fetch above 0xFFE enters the fault before decode (R164, R169). -/
theorem cycle_of_fetch_beyond {s : State} (hh : ¬ s.halted) (hp : 0xFFE < s.pc.toNat) :
    cycle s = .next (s.withFault .memoryOutOfRange (BitVec.ofNat 16 (max s.pc.toNat 0x1000)),
      .faulted .memoryOutOfRange) := by
  rcases cycle_cases s with ⟨hhalted, -⟩ | ⟨-, -, e⟩ | ⟨-, hle, -⟩ | ⟨-, hle, -⟩
  · exact absurd hhalted hh
  · exact e
  all_goals exact absurd hp (Nat.not_lt.mpr hle)

/-- A decoded instruction runs from the state whose PC is its fetch address (R81). -/
theorem cycle_of_decode_known {s : State} {i : Instr} (hh : ¬ s.halted) (hp : s.pc.toNat ≤ 0xFFE)
    (hd : decode s.fetchWord = .known i) : cycle s = withStatus statusAfter (exec i s) := by
  rcases cycle_cases s with ⟨hhalted, -⟩ | ⟨-, hbeyond, -⟩ | ⟨-, -, ⟨c, hunknown⟩, -⟩ | ⟨-, -, j, hknown, e⟩
  · exact absurd hhalted hh
  · exact absurd hp (Nat.not_le.mpr hbeyond)
  · rw [hd] at hunknown; cases hunknown
  · rw [hd] at hknown; cases hknown; exact e

/-- Pairing with a status and forgetting it gives the outcome back (R36). -/
theorem forgetStatus_withStatus (f : State → StepStatus) (o : Host.Outcome State Fault Refusal) :
    forgetStatus (withStatus f o) = o := by
  cases o <;> rfl

theorem step_of_decode_known {s : State} {i : Instr} (hh : ¬ s.halted) (hp : s.pc.toNat ≤ 0xFFE)
    (hd : decode s.fetchWord = .known i) : step s = exec i s := by
  rw [step, cycle_of_decode_known hh hp hd, forgetStatus_withStatus]

/-- Settles O12: the fourth case of STEP. -/
theorem stepRunsTheDecodedInstruction : Obligations.StepRunsTheDecodedInstruction :=
  fun _ _ => step_of_decode_known

/-- The first fetched address out of range: PC itself, but 0x1000 when PC is the last byte (R164). -/
theorem lowestOutOfRange_fetch {w : Word} (h : 0xFFE < w.toNat) :
    BitVec.ofNat 16 (max w.toNat 0x1000) = if w = 0xFFF then 0x1000 else w := by
  apply BitVec.eq_of_toNat_eq
  have := w.isLt
  have hw : w = 0xFFF ↔ w.toNat = 0xFFF := BitVec.toNat_inj.symm
  rw [BitVec.toNat_ofNat]
  split
  next h => rw [h]; rfl
  next h => rw [hw] at h; omega

/-- Settles O16: the fetch fault, with its address written out by `lowestOutOfRange_fetch`. -/
theorem fetchBeyondMemoryFaults : Obligations.FetchBeyondMemoryFaults := by
  intro s hh hp
  rw [cycle_of_fetch_beyond hh hp, lowestOutOfRange_fetch hp]
  rfl

/-- A state that runs and has PC above 0xFFE faults at its fetch, whatever memory holds (R164). -/
theorem next_fetch_faults {s : State} (hh : ¬ s.halted) (hp : 0xFFE < s.pc.toNat) : ∃ info, cycle s =
    .next ({ s with fault := ⟨.memoryOutOfRange, s.pc, info⟩ }, .faulted .memoryOutOfRange) :=
  ⟨_, cycle_of_fetch_beyond hh hp⟩

/-! ### Every step answers, and its status tells what it did -/

/-- Settles O17: each of the four cases of STEP answers a next state, an instruction by `exec_answers`. -/
theorem everyStepAnswersANextState : Obligations.EveryStepAnswersANextState := by
  intro s
  rcases cycle_cases s with ⟨-, e⟩ | ⟨-, -, e⟩ | ⟨-, -, -, e⟩ | ⟨-, -, i, -, e⟩
  case inr.inr.inr =>
    obtain ⟨t, he⟩ := exec_answers i s
    exact ⟨t, by rw [step, e, forgetStatus_withStatus, he]⟩
  all_goals exact ⟨_, by rw [step, e]; rfl⟩

/-- Settles O18: the status of each case of STEP, that of an instruction read off FAULT, which only fault entry writes. -/
theorem statusTellsWhatTheStepDid : Obligations.StatusTellsWhatTheStepDid := by
  intro s t st h
  rcases cycle_cases s with ⟨hh, e⟩ | ⟨hh, -, e⟩ | ⟨hh, -, -, e⟩ | ⟨hh, hp, i, -, e⟩ <;> rw [e] at h
  · cases h; exact ⟨hh, rfl, rfl⟩
  · cases h; exact ⟨hh, by decide, _, rfl⟩
  · cases h; exact ⟨hh, rfl, rfl⟩
  · obtain ⟨u, he⟩ := exec_answers i s
    rw [he] at h
    cases h
    rcases exec_cases he with ⟨-, rfl⟩ | ⟨c, w, -, hc, rfl⟩
    · have hrun : (effect i s).fault.code = .none := by rw [effect_fault]; exact not_not.mp hh
      rw [statusAfter, if_pos hrun]
      exact ⟨hh, not_not.mpr hrun, effect_fault i s, hp⟩
    · have hfault : (s.withFault c w).fault.code ≠ .none := hc
      rw [statusAfter, if_neg hfault]
      exact ⟨hh, hc, w, rfl⟩

/-! ### A halted machine -/

/-- A tick as a subtraction of words: 1, but 0 from 0 (R171). -/
theorem tick_eq_sub (b : Byte) : tick b = b - if b = 0 then 0 else 1 := by
  apply BitVec.eq_of_toNat_eq
  have := b.isLt
  have hb : b = 0 ↔ b.toNat = 0 := BitVec.toNat_inj.symm
  rw [toNat_tick, BitVec.toNat_sub]
  split
  next h => rw [h]; rfl
  next h =>
    rw [hb] at h
    show _ = (2 ^ 8 - 1 + b.toNat) % 2 ^ 8
    omega

/-- Settles O14: STEP changes nothing by `cycle_of_halted`, and the other operations do not look at FAULT. -/
theorem haltedMachineDoesNotStep : Obligations.HaltedMachineDoesNotStep := by
  intro s hh
  refine ⟨cycle_of_halted hh, step_of_halted hh, ?_, ?_, fun k => rfl⟩
  · rw [← tick_eq_sub]; rfl
  · rw [← tick_eq_sub]; rfl

/-- What no operation changes on a halted machine: all but the timers, KEY and the RAND input (R168). -/
structure SameButHostInputs (s t : State) : Prop where
  fault : t.fault = s.fault
  mem : t.mem = s.mem
  v : t.v = s.v
  i : t.i = s.i
  pc : t.pc = s.pc
  stack : t.stack = s.stack
  fb : t.fb = s.fb

theorem SameButHostInputs.trans {s t u : State} (h : SameButHostInputs s t) (h' : SameButHostInputs t u) :
    SameButHostInputs s u where
  fault := h'.fault.trans h.fault
  mem := h'.mem.trans h.mem
  v := h'.v.trans h.v
  i := h'.i.trans h.i
  pc := h'.pc.trans h.pc
  stack := h'.stack.trans h.stack
  fb := h'.fb.trans h.fb

/-- One operation of the host on a halted machine (R168). -/
theorem apply_of_halted {s t : State} {op : HostOp} (hh : s.halted) (h : s.apply op = .next t) :
    SameButHostInputs s t := by
  cases op with
  | step r =>
    cases (step_of_halted (s := s.presentRand r) hh).symm.trans h
    exact ⟨rfl, rfl, rfl, rfl, rfl, rfl, rfl⟩
  | tickDt | tickSt | setKeys => cases h; exact ⟨rfl, rfl, rfl, rfl, rfl, rfl, rfl⟩

/-- A run that answers a next state is a first operation that does and the run of the rest (R62, R200). -/
theorem run_cons {op : HostOp} {ops : List HostOp} {s t : State} (h : State.run (op :: ops) s = .next t) :
    ∃ u, s.apply op = .next u ∧ State.run ops u = .next t := by
  rw [State.run] at h
  split at h
  next u hu => exact ⟨u, hu, h⟩
  all_goals cases h

theorem run_of_halted {ops : List HostOp} {s t : State} (hh : s.halted) (h : State.run ops s = .next t) :
    SameButHostInputs s t := by
  induction ops generalizing s with
  | nil => cases h; exact ⟨rfl, rfl, rfl, rfl, rfl, rfl, rfl⟩
  | cons op ops ih =>
    obtain ⟨u, hu, hrest⟩ := run_cons h
    have hfirst := apply_of_halted hh hu
    exact hfirst.trans (ih (by rwa [State.halted, hfirst.fault]) hrest)

/-- Settles O15: by induction over the operations, FAULT and with it the halt kept by each. -/
theorem haltIsForever : Obligations.HaltIsForever := by
  intro ops s t hh h
  obtain ⟨hfault, hmem, hv, hi, hpc, hstack, hfb⟩ := run_of_halted hh h
  exact ⟨by rwa [State.halted, hfault], hfault, hmem, hv, hi, hpc, hstack, hfb⟩

/-! ### Ticks -/

/-- Settles O54: by induction over the ticks, each off its own timer by `toNat_tick`. -/
theorem ticksSaturateIndependently : Obligations.TicksSaturateIndependently := by
  intro ops
  induction ops with
  | nil => exact fun s _ => ⟨s, rfl, rfl, rfl, rfl⟩
  | cons op ops ih =>
    intro s hops
    obtain ⟨hop, hrest⟩ := List.forall_mem_cons.mp hops
    rcases hop with rfl | rfl
    · obtain ⟨t, hrun, hdt, hst, ht⟩ := ih s.tickDt hrest
      refine ⟨t, hrun, ?_, ?_, ht⟩
      · rw [hdt, State.tickDt, State.setDt_dt, toNat_tick, List.count_cons_self]; omega
      · rw [hst, List.count_cons_of_ne (by decide)]; rfl
    · obtain ⟨t, hrun, hdt, hst, ht⟩ := ih s.tickSt hrest
      refine ⟨t, hrun, ?_, ?_, ht⟩
      · rw [hdt, List.count_cons_of_ne (by decide)]; rfl
      · rw [hst, State.tickSt, State.setSt_st, toNat_tick, List.count_cons_self]; omega

/-! ### The sound timer beside a step -/

/-- No fault depends on ST (R160). -/
theorem raises_setSt (i : Instr) (s : State) (b : Byte) : raises i (s.setSt b) = raises i s := by
  cases i <;> rfl

theorem State.consumeRand_setSt (s : State) (b : Byte) : (s.setSt b).consumeRand = s.consumeRand.setSt b := by
  unfold State.consumeRand
  rw [State.setSt_randIn]
  split <;> rfl

/-- Another ST passes through the effect of every instruction but Fx18 (R27). -/
theorem effect_setSt {i : Instr} (hi : ∀ x, i ≠ .ldStVx x) (s : State) (b : Byte) :
    effect i (s.setSt b) = (effect i s).setSt b := by
  cases i
  case ldStVx x => exact absurd rfl (hi x)
  case seVxKk | sneVxKk | seVxVy | sneVxVy | skpVx | sknpVx => simp only [effect, State.skipIf_eq_setPc]; rfl
  case ldVxK => simp only [effect_ldVxK]; rfl
  case rndVxKk x kk => exact congrArg (State.setReg · x (s.rand &&& kk)) (s.advance.consumeRand_setSt b)
  all_goals rfl

theorem exec_setSt {i : Instr} (hi : ∀ x, i ≠ .ldStVx x) {s t : State} (b : Byte) (h : exec i s = .next t) :
    exec i (s.setSt b) = .next (t.setSt b) := by
  obtain ⟨_, e, rfl⟩ :=
    exec_related (fun t t' => t' = t.setSt b) (raises_setSt i s b) (fun _ _ => rfl) (effect_setSt hi s b) h
  exact e

/-- No effect but that of Fx18 changes ST: passing the state's own through changes nothing. -/
theorem exec_st {i : Instr} (hi : ∀ x, i ≠ .ldStVx x) {s t : State} (h : exec i s = .next t) : t.st = s.st := by
  have hown : t = t.setSt s.st := Host.Outcome.next.inj (h.symm.trans (exec_setSt hi s.st h))
  exact (congrArg State.st hown).trans (t.setSt_st s.st)

/-- A step that does not fetch Fx18 keeps ST, and runs the same with another (R27, R200). -/
theorem step_setSt {s t : State} (hi : ∀ x, decode s.fetchWord ≠ .known (.ldStVx x)) (b : Byte) (h : step s = .next t) :
    t.st = s.st ∧ step (s.setSt b) = .next (t.setSt b) := by
  rcases step_cases h with ⟨hh, rfl⟩ | ⟨hh, hp, rfl⟩ | ⟨hh, hp, ⟨c, hd⟩, rfl⟩ | ⟨hh, hp, i, hd, he⟩
  · exact ⟨rfl, step_of_halted hh⟩
  · exact ⟨rfl, congrArg forgetStatus (cycle_of_fetch_beyond (s := s.setSt b) hh hp)⟩
  · exact ⟨rfl, congrArg forgetStatus (cycle_of_decode_unknown (s := s.setSt b) hh hp hd)⟩
  · have hother : ∀ x, i ≠ .ldStVx x := fun x hx => hi x (hx ▸ hd)
    exact ⟨exec_st hother he, (step_of_decode_known (s := s.setSt b) hh hp hd).trans (exec_setSt hother b he)⟩

/-- Settles O55: the tick before the step passes through it by `step_setSt`, which also keeps the ticked value. -/
theorem soundTicksCommuteWithSteps : Obligations.SoundTicksCommuteWithSteps := by
  intro s t h hi
  obtain ⟨hst, hstep⟩ := step_setSt hi (tick s.st) h
  rw [State.tickSt, State.tickSt, hst, hstep]

end Sys2Proof.Machine

/-! SUPPORT. What each write of the state leaves unchanged, one rule per operation, from which the frame of an instruction's effect is
put together; then the completion statements of the control-flow, register and timer instructions. -/

namespace Sys2Proof.Machine

/-! ### Frames -/

theorem Frame.refl (may : Footprint) (s : State) : Frame may s s :=
  ⟨fun _ _ => rfl, fun _ => rfl, fun _ => rfl, fun _ => rfl, fun _ => rfl, fun _ => rfl, rfl, fun _ => rfl,
    fun _ => ⟨rfl, rfl⟩, fun _ _ => rfl⟩

theorem Frame.trans {may : Footprint} {s t u : State} (h : Frame may s t) (h' : Frame may t u) : Frame may s u where
  regs r hr := (h'.regs r hr).trans (h.regs r hr)
  i hi := (h'.i hi).trans (h.i hi)
  dt hd := (h'.dt hd).trans (h.dt hd)
  st hs := (h'.st hs).trans (h.st hs)
  stack hk := (h'.stack hk).trans (h.stack hk)
  fb hf := (h'.fb hf).trans (h.fb hf)
  key := h'.key.trans h.key
  fault hf := (h'.fault hf).trans (h.fault hf)
  rand hr := ⟨(h'.rand hr).1.trans (h.rand hr).1, (h'.rand hr).2.trans (h.rand hr).2⟩
  mem a ha := (h'.mem a ha).trans (h.mem a ha)

section Rules

variable {may : Footprint} (s : State)

theorem frame_setPc (w : Word) : Frame may s (s.setPc w) := { Frame.refl may s with }

theorem frame_advance : Frame may s s.advance := frame_setPc s _

theorem frame_setI (h : may.i) (w : Word) : Frame may s (s.setI w) :=
  { Frame.refl may s with i := fun hn => absurd h hn }

theorem frame_setSt (h : may.st) (b : Byte) : Frame may s (s.setSt b) :=
  { Frame.refl may s with st := fun hn => absurd h hn }

theorem frame_setStack (h : may.stack) (k : List Word) : Frame may s (s.setStack k) :=
  { Frame.refl may s with stack := fun hn => absurd h hn }

theorem frame_setFb (h : may.fb) (f : Framebuffer) : Frame may s (s.setFb f) :=
  { Frame.refl may s with fb := fun hn => absurd h hn }

theorem frame_setReg {x : Reg} (h : may.regs x) (b : Byte) : Frame may s (s.setReg x b) :=
  { Frame.refl may s with regs := fun _ hr => s.setReg_reg_ne b fun e => hr (e ▸ h) }

theorem frame_setMem {m : Memory} (h : ∀ a, ¬ may.mem a → m.read a = s.mem.read a) : Frame may s (s.setMem m) :=
  { Frame.refl may s with mem := h }

theorem frame_loadRegs {x : Reg} (h : ∀ r, r ≤ x → may.regs r) (a : Nat) : Frame may s (s.loadRegs a x) :=
  ⟨fun r hr => by rw [State.loadRegs_reg, if_neg fun hle => hr (h r hle)], fun _ => s.loadRegs_i a x,
    fun _ => s.loadRegs_dt a x, fun _ => s.loadRegs_st a x, fun _ => s.loadRegs_stack a x, fun _ => s.loadRegs_fb a x,
    s.loadRegs_key a x, fun _ => s.loadRegs_fault a x, fun _ => ⟨s.loadRegs_randIn a x, s.loadRegs_draws a x⟩,
    fun n _ => s.loadRegs_byteAt a x n⟩

theorem frame_consumeRand (h : may.rand) : Frame may s s.consumeRand := by
  unfold State.consumeRand
  split <;> exact { Frame.refl may s with rand := fun hn => absurd h hn }

end Rules

/-! ### Skips -/

/-- A conditional skip as one write of PC (R100). -/
theorem advance_skipIf (s : State) (b : Bool) :
    s.advance.skipIf b = { s with pc := if b then s.pc + 4 else s.pc + 2 } := by
  have hfour : s.pc + 2 + 2 = s.pc + 4 := BitVec.add_assoc s.pc 2 2
  rw [State.skipIf_eq_setPc, State.advance_pc, hfour]
  rfl

theorem advance_skipIf_decide (s : State) (p : Prop) [Decidable p] :
    s.advance.skipIf (decide p) = { s with pc := if p then s.pc + 4 else s.pc + 2 } := by
  simp only [advance_skipIf, decide_eq_true_eq]

theorem advance_skipIf_not (s : State) (b : Bool) :
    s.advance.skipIf (!b) = { s with pc := if b then s.pc + 2 else s.pc + 4 } := by
  rw [advance_skipIf]
  cases b <;> rfl

theorem advance_skipIf_decide_not (s : State) (p : Prop) [Decidable p] :
    s.advance.skipIf (decide ¬ p) = { s with pc := if p then s.pc + 2 else s.pc + 4 } := by
  simp only [decide_not, advance_skipIf_not, decide_eq_true_eq]

/-! ### Control flow -/

/-- A word of class 0 is keyed by kk, x ignored (R74, D1). -/
theorem decode_wordXKk_cls (x : Reg) : decode (wordXKk 0x0 x 0xE0#8) = .known .cls :=
  decode_of_dispatchKey (i := .cls) ⟨classOf_wordXKk (by decide) x _, fieldKk_wordXKk (by decide) x _⟩

theorem decode_wordXKk_ret (x : Reg) : decode (wordXKk 0x0 x 0xEE#8) = .known .ret :=
  decode_of_dispatchKey (i := .ret) ⟨classOf_wordXKk (by decide) x _, fieldKk_wordXKk (by decide) x _⟩

/-- A word of class 0, given without its zero class. -/
theorem ofNat_eq_wordXKk_zero (x : Reg) (kk : Byte) :
    BitVec.ofNat 16 (x.val * 256 + kk.toNat) = wordXKk 0x0 x kk := by
  rw [wordXKk, Nat.zero_mul, Nat.zero_add]

/-- Settles O22: a pop by `withPop_cases`, its frame two writes. -/
theorem retPopsOrUnderflows : Obligations.RetPopsOrUnderflows := by
  refine ⟨fun x => ?_, fun s w rest hs => ?_, fun s hs => ?_⟩
  · exact (congrArg decode (ofNat_eq_wordXKk_zero x 0xEE#8)).trans (decode_wordXKk_ret x)
  · refine ⟨(s.setStack rest).setPc w, ?_, rfl, rfl, (frame_setStack s trivial rest).trans (frame_setPc _ w)⟩
    simp only [exec, execRet, withPop, hs]
  · rcases withPop_cases s with ⟨w, rest, hcons, -⟩ | ⟨-, e⟩
    · rw [hs] at hcons; cases hcons
    · exact e

/-- Settles O23: a push by `withPush_ok` and `withPush_fault`. -/
theorem callPushesOrOverflows : Obligations.CallPushesOrOverflows := by
  refine ⟨fun a ha => ?_, fun s a hroom => ?_, fun s a hfull => withPush_fault _ _ hfull⟩
  · exact decodeOfEncodeIsTheInstruction (.callNnn a) (decide_eq_true (Nat.lt_succ_of_le ha))
  · refine ⟨(s.setPc a).setStack ((s.pc + 2) :: s.stack), withPush_ok _ _ hroom, rfl, rfl, ?_, rfl,
      (frame_setPc s a).trans (frame_setStack _ trivial _)⟩
    simp [State.stackEntry, State.sp]

/-- Settles O24: the pop finds the entry the push put there. -/
theorem retUndoesCall : Obligations.RetUndoesCall :=
  fun _ _ hroom => ⟨_, withPush_ok _ _ hroom, rfl⟩

/-- Settles O25: a jump writes PC alone, so to its own address it changes nothing, and at 0xFFF the next fetch faults. -/
theorem jpSetsPc : Obligations.JpSetsPc := by
  have hdecode : ∀ a : Word, a.toNat ≤ 0xFFF → decode (BitVec.ofNat 16 (0x1000 + a.toNat)) = .known (.jpNnn a) :=
    fun a ha => decodeOfEncodeIsTheInstruction (.jpNnn a) (decide_eq_true (Nat.lt_succ_of_le ha))
  refine ⟨hdecode, fun s a => rfl, fun s hh hp hw => ?_, fun s t hh h => ?_⟩
  · have hself : decode s.fetchWord = .known (.jpNnn s.pc) := hw ▸ hdecode s.pc (hp.trans (by decide))
    have hstatus : statusAfter s = .executed := if_pos (not_not.mp hh)
    rw [cycle_of_decode_known hh hp hself, ← hstatus]
    rfl
  · cases h
    have hbeyond : 0xFFE < (0xFFF : Word).toNat := by decide
    exact fetchBeyondMemoryFaults (s.setPc 0xFFF) hh hbeyond

/-- Settles O26: each skip is one write of PC, which leaves FAULT for the next fetch to find clear. -/
theorem skipOnByteCompare : Obligations.SkipOnByteCompare := by
  have hse : ∀ (s : State) (x : Reg) (kk : Byte), exec (.seVxKk x kk) s =
      .next { s with pc := if s.reg x = kk then s.pc + 4 else s.pc + 2 } :=
    fun s x kk => congrArg Host.Outcome.next (advance_skipIf_decide s (s.reg x = kk))
  have hsne : ∀ (s : State) (x : Reg) (kk : Byte), exec (.sneVxKk x kk) s =
      .next { s with pc := if s.reg x = kk then s.pc + 2 else s.pc + 4 } :=
    fun s x kk => congrArg Host.Outcome.next (advance_skipIf_decide_not s (s.reg x = kk))
  refine ⟨fun x kk => ⟨?_, ?_⟩, fun s x kk => ⟨hse s x kk, hsne s x kk⟩, fun s t x kk i hi hh h hp => ?_⟩
  · exact decodeOfEncodeIsTheInstruction (.seVxKk x kk) rfl
  · exact decodeOfEncodeIsTheInstruction (.sneVxKk x kk) rfl
  · simp only [List.mem_cons, List.not_mem_nil, or_false] at hi
    rcases hi with rfl | rfl
    · cases (hse s x kk).symm.trans h; exact next_fetch_faults hh hp
    · cases (hsne s x kk).symm.trans h; exact next_fetch_faults hh hp

/-- Settles O27: the class alone selects both words, and each skip is one write of PC. -/
theorem skipOnRegisterCompare : Obligations.SkipOnRegisterCompare := by
  refine ⟨fun x y n => ⟨?_, ?_⟩, fun s x y => ⟨?_, ?_⟩⟩
  · have hd := decode_of_dispatchKey (i := .seVxVy x y) (classOf_wordXYN (c := 0x5) (by decide) n.isLt x y)
    rwa [Instr.withFields, fieldX_wordXYN (by decide) n.isLt, fieldY_wordXYN (by decide) n.isLt] at hd
  · have hd := decode_of_dispatchKey (i := .sneVxVy x y) (classOf_wordXYN (c := 0x9) (by decide) n.isLt x y)
    rwa [Instr.withFields, fieldX_wordXYN (by decide) n.isLt, fieldY_wordXYN (by decide) n.isLt] at hd
  · exact congrArg Host.Outcome.next (advance_skipIf_decide s (s.reg x = s.reg y))
  · exact congrArg Host.Outcome.next (advance_skipIf_decide_not s (s.reg x = s.reg y))

/-- Settles O28: the target by `toNat_indexedTarget`, one write of PC. -/
theorem jpV0AddsV0 : Obligations.JpV0AddsV0 := by
  refine ⟨fun a ha => ?_, fun s a ha => ?_, fun s t a hh ha hbeyond h => ?_⟩
  · exact decodeOfEncodeIsTheInstruction (.jpV0Nnn a) (decide_eq_true (Nat.lt_succ_of_le ha))
  · have htarget := toNat_indexedTarget ha (s.reg v0)
    have := (s.reg v0).isLt
    refine ⟨s.setPc (indexedTarget a (s.reg v0)), rfl, htarget, ?_, frame_setPc s _⟩
    rw [State.setPc_pc, htarget]; omega
  · cases h
    exact next_fetch_faults hh (hbeyond.trans_eq (toNat_indexedTarget ha (s.reg v0)).symm)

/-! ### Results and flags -/

/-- Settles O30: each effect writes Vx alone by `exec_writes_one_register`. -/
theorem copyAndLogicLeaveVF : Obligations.CopyAndLogicLeaveVF := by
  intro s x y
  refine ⟨exec_writes_one_register (exec_eq (.ldVxVy x y) s), ?or, ?and, ?xor⟩
  case or =>
    obtain ⟨t, hexec, hreg, hrest⟩ := exec_writes_one_register (exec_eq (.orVxVy x y) s)
    exact ⟨t, hexec, fun k => hreg ▸ BitVec.getLsbD_or, hrest⟩
  case and =>
    obtain ⟨t, hexec, hreg, hrest⟩ := exec_writes_one_register (exec_eq (.andVxVy x y) s)
    exact ⟨t, hexec, fun k => hreg ▸ BitVec.getLsbD_and, hrest⟩
  case xor =>
    obtain ⟨t, hexec, hreg, hrest⟩ := exec_writes_one_register (exec_eq (.xorVxVy x y) s)
    exact ⟨t, hexec, fun k => hreg ▸ BitVec.getLsbD_xor, hrest⟩

/-- An instruction whose effect is the advance and a result with its flag, in the terms of a completion statement (R120). -/
theorem exec_writes_result_and_flag {i : Instr} {s : State} {x : Reg} {b : Byte} {f : Bool}
    (h : exec i s = .next (s.advance.setResultFlag x b f)) :
    ∃ t, exec i s = .next t ∧ (x ≠ vF → t.reg x = b) ∧ t.reg vF = flagByte f ∧ t.pc = s.pc + 2 ∧
      Frame { regs := fun r => r = x ∨ r = vF } s t := by
  refine ⟨_, h, fun hx => ?_, ?_, rfl, ?_⟩
  · rw [State.setResultFlag_reg, if_neg hx, if_pos rfl]
  · rw [State.setResultFlag_reg, if_pos rfl]
  · exact ((frame_advance s).trans (frame_setReg _ (Or.inl rfl) b)).trans (frame_setReg _ (Or.inr rfl) _)

theorem flagByte_decide (p : Prop) [Decidable p] : flagByte (decide p) = if p then 1 else 0 := by
  simp only [flagByte, decide_eq_true_eq]

/-- Settles O31: the truncated sum by `toNat_addResult`, the flag a comparison of the sum itself. -/
theorem addSetsCarry : Obligations.AddSetsCarry := by
  intro s x y
  obtain ⟨t, hexec, hreg, hflag, hrest⟩ := exec_writes_result_and_flag (exec_eq (.addVxVy x y) s)
  exact ⟨t, hexec, fun hx => hreg hx ▸ toNat_addResult _ _, hflag.trans (flagByte_decide _), hrest⟩

/-- The truncated difference is the difference modulo 256 (R128, R130). -/
theorem toNat_subResult (a b : Byte) : ((subResult a b).toNat : Int) = (a.toNat - b.toNat : Int) % 256 := by
  have := a.isLt; have := b.isLt
  rw [subResult, BitVec.toNat_ofNat]
  omega

/-- Settles O32: both differences by `toNat_subResult`, the flags comparisons of the operands. -/
theorem subtractSetsNoBorrow : Obligations.SubtractSetsNoBorrow := by
  intro s x y
  refine ⟨?sub, ?subn⟩
  case sub =>
    obtain ⟨t, hexec, hreg, hflag, hrest⟩ := exec_writes_result_and_flag (exec_eq (.subVxVy x y) s)
    exact ⟨t, hexec, fun hx => hreg hx ▸ toNat_subResult _ _, hflag.trans (flagByte_decide _), hrest⟩
  case subn =>
    obtain ⟨t, hexec, hreg, hflag, hrest⟩ := exec_writes_result_and_flag (exec_eq (.subnVxVy x y) s)
    exact ⟨t, hexec, fun hx => hreg hx ▸ toNat_subResult _ _, hflag.trans (flagByte_decide _), hrest⟩

theorem shrResult_eq (a : Byte) : shrResult a = a >>> 1 := by
  apply BitVec.eq_of_toNat_eq
  have := a.isLt
  rw [shrResult, BitVec.toNat_ofNat, BitVec.toNat_ushiftRight, Nat.shiftRight_eq_div_pow]
  omega

theorem shlResult_eq (a : Byte) : shlResult a = a <<< 1 := by
  apply BitVec.eq_of_toNat_eq
  rw [shlResult, BitVec.toNat_ofNat, BitVec.toNat_shiftLeft, Nat.shiftLeft_eq, Nat.pow_one]

/-- Settles O33: both results are shifts of the word, the flags bits of the operand. -/
theorem shiftsSetTheBitThatLeaves : Obligations.ShiftsSetTheBitThatLeaves := by
  intro s x
  refine ⟨?shr, ?shl⟩
  case shr =>
    obtain ⟨t, hexec, hreg, hflag, hrest⟩ := exec_writes_result_and_flag (exec_eq (.shrVx x) s)
    refine ⟨t, hexec, fun hx k => ?_, hflag, hrest⟩
    rw [hreg hx, shrResult_eq, BitVec.getLsbD_ushiftRight, Nat.add_comm]
  case shl =>
    obtain ⟨t, hexec, hreg, hflag, hrest⟩ := exec_writes_result_and_flag (exec_eq (.shlVx x) s)
    refine ⟨t, hexec, fun hx => ⟨?_, fun k hk => ?_⟩, hflag, hrest⟩
    · rw [hreg hx, shlResult_eq]; simp
    · rw [hreg hx, shlResult_eq, BitVec.getLsbD_shiftLeft]
      simp [show k + 1 < 8 by omega]

/-- Settles O34: the draw and its consumption by `State.rand_named` and `State.rand_free`. -/
theorem rndMasksTheDraw : Obligations.RndMasksTheDraw := by
  intro s x kk
  have hframe : Frame { regs := fun q => q = x, rand := True } s (s.advance.consumeRand.setReg x (s.rand &&& kk)) :=
    ((frame_advance s).trans (frame_consumeRand _ trivial)).trans (frame_setReg _ rfl _)
  have hreg := s.advance.consumeRand.setReg_reg_same x (s.rand &&& kk)
  have hpc : (s.advance.consumeRand.setReg x (s.rand &&& kk)).pc = s.pc + 2 := s.advance.consumeRand_pc
  refine ⟨fun r rs hs => ⟨_, rfl, ?_, ?_, ?_, hpc, hframe⟩, fun hs => ⟨_, rfl, ?_, ?_, ?_, hpc, hframe⟩⟩
  · rw [hreg, (State.rand_named s hs).1]
  · rw [State.setReg_randIn, (State.rand_named s.advance hs).2]
  · rw [State.setReg_draws, (State.rand_named s.advance hs).2]; rfl
  · rw [hreg, (State.rand_free s hs).1]
  · rw [State.setReg_randIn, (State.rand_free s.advance hs).2]; exact hs
  · rw [State.setReg_draws, (State.rand_free s.advance hs).2]; rfl

/-- Settles O36: I written, then the flag, both from the sum before truncation. -/
theorem addIndexFlagsBeyondMemory : Obligations.AddIndexFlagsBeyondMemory := by
  intro s x
  refine ⟨_, exec_eq (.addIVx x) s, BitVec.toNat_ofNat _ _, ?_, rfl, ?_⟩
  · exact ((s.advance.setI _).setReg_reg_same vF _).trans (flagByte_decide _)
  · exact ((frame_advance s).trans (frame_setI _ trivial _)).trans (frame_setReg _ rfl _)

/-! ### Keys and the sound timer -/

/-- Settles O42: a key of the latch passes the check, and each skip is one write of PC. -/
theorem keySkips : Obligations.KeySkips := by
  intro s x hk
  constructor
  · exact (withKeyCheck_ok s _ (Nat.lt_succ_of_le hk)).trans (congrArg _ (advance_skipIf s _))
  · exact (withKeyCheck_ok s _ (Nat.lt_succ_of_le hk)).trans (congrArg _ (advance_skipIf_not s _))

/-- Settles O43: a key of the latch passes the check, and by `effect_ldVxK` PC goes on or is written back unchanged. -/
theorem keyWaitSpins : Obligations.KeyWaitSpins := by
  intro s x hk
  have hexec : exec (.ldVxK x) s = .next (s.setPc (if s.keyDown (s.reg x) then s.pc + 2 else s.pc)) :=
    (withKeyCheck_ok s _ (Nat.lt_succ_of_le hk)).trans (congrArg _ (effect_ldVxK x s))
  refine ⟨fun hdown => ?_, fun hup => ?_⟩
  · have hkey : s.keyDown (s.reg x) = true := hdown
    rw [hexec, hkey]; rfl
  · have hkey : s.keyDown (s.reg x) = false := hup
    rw [hexec, hkey]; rfl

/-- Settles O44: the check refuses the index before anything is done. -/
theorem keyIndexBeyondTheLatchFaults : Obligations.KeyIndexBeyondTheLatchFaults := by
  intro s x hk i hi
  have hfault : ∀ t, withKeyCheck (s.reg x) s t =
      .next { s with fault := ⟨.keyIndexOutOfRange, s.pc, (s.reg x).setWidth 16⟩ } := fun t => by
    rw [withKeyCheck_fault s t hk, BitVec.ofNat_toNat]; rfl
  simp only [List.mem_cons, List.not_mem_nil, or_false] at hi
  rcases hi with rfl | rfl | rfl <;> exact hfault _

/-- Settles O46: ST written alone, and SOUND is its test. -/
theorem soundTimerSet : Obligations.SoundTimerSet := by
  intro s x
  exact ⟨s.advance.setSt (s.reg x), rfl, rfl, decide_eq_true_iff, rfl,
    (frame_advance s).trans (frame_setSt _ trivial _)⟩

/-! ### Host ports -/

/-- Settles O56: the ports read fields, and the top of the stack is the last entry from the bottom. -/
theorem hostPorts : Obligations.HostPorts := by
  refine ⟨fun s k => ⟨s.setKeys k, rfl, fun _ _ => rfl, rfl⟩, fun s => ⟨?_, fun hsp => ?_, decide_eq_true_iff⟩,
    fun s => ?_, fun s => rfl⟩
  · rw [State.stackTop, State.sp, List.head?_eq_none_iff, List.length_eq_zero_iff]
  · rw [State.stackTop, State.stackEntry, State.sp, ← List.length_reverse, ← List.getLast?_eq_getElem?,
      List.getLast?_reverse]
  · rw [State.faultPort]
    cases s.fault.code <;> rfl

end Sys2Proof.Machine

/-! SUPPORT. Memory instructions at work: what a store leaves to be read, by a load and by a fetch (R52, R65, R143 to R145), the fault
of a range that does not fit (R54, R164), the canonical form of memory, and the memory LOAD builds (R190). -/

namespace Sys2Proof.Machine

/-! ### The canonical form -/

/-- In rising order an address is listed with a byte exactly when the pair is an entry. -/
theorem Memory.listed_eq_some_iff {m : Memory} (hm : m.Pairwise (fun c d => c.1 < d.1)) {a : Nat} {b : Byte} :
    m.listed a = some b ↔ (a, b) ∈ m := by
  induction m with
  | nil => simp [Memory.listed]
  | cons e m ih =>
    obtain ⟨c, d⟩ := e
    obtain ⟨hlt, hm⟩ := List.pairwise_cons.mp hm
    rw [Memory.listed, List.mem_cons, Prod.mk.injEq]
    split
    next hc =>
      subst hc
      have hnot : (c, b) ∉ m := fun h => Nat.lt_irrefl c (hlt _ h)
      simp [hnot, eq_comm]
    next hc => simp [ih hm, Ne.symm hc]

theorem Memory.nodup {m : Memory} (hm : m.Pairwise (fun c d => c.1 < d.1)) : m.Nodup :=
  hm.imp fun {c d} hlt (he : c = d) => Nat.lt_irrefl d.1 (he ▸ hlt)

/-- In canonical form the entries are the known bytes that differ from what their address holds unlisted (log 5). -/
theorem Memory.mem_iff_known {m : Memory} (hm : m.wf) {e : Host.Cell} :
    e ∈ m ↔ m.known e.1 = some e.2 ∧ Memory.unlisted e.1 ≠ some e.2 := by
  rw [← Memory.listed_eq_some_iff hm.1, Memory.known]
  constructor
  · intro h
    rw [h]
    exact ⟨rfl, (hm.2 e ((Memory.listed_eq_some_iff hm.1).mp h)).2⟩
  · rintro ⟨hknown, hother⟩
    cases hl : m.listed e.1 with
    | some b => rwa [hl, Option.some_or] at hknown
    | none => rw [hl, Option.none_or] at hknown; exact absurd hknown hother

/-- Settles O4: by `Memory.mem_iff_known` both lists have the same entries, and a strictly rising list is determined by them. -/
theorem canonicalMemoriesThatRecordTheSameAreEqual : Obligations.CanonicalMemoriesThatRecordTheSameAreEqual := by
  intro m m' hm hm' h
  have hmem : ∀ e, e ∈ m ↔ e ∈ m' := fun e => by rw [Memory.mem_iff_known hm, Memory.mem_iff_known hm', h]
  have hperm : m.Perm m' := (List.perm_ext_iff_of_nodup (Memory.nodup hm.1) (Memory.nodup hm'.1)).mpr hmem
  exact hperm.eq_of_pairwise (fun c d _ _ hcd hdc => absurd hcd (Nat.lt_asymm hdc)) hm.1 hm'.1

/-! ### The memory LOAD builds -/

/-- Every read of the loaded memory: the ROM copied last, under it the font, under that the empty memory (R190). -/
theorem loadedMemory_read (font : Vector Byte 80) {rom : List Byte} (hfits : rom.length ≤ 3584) (a : Nat) :
    (loadedMemory font rom).read a =
      if 0x200 ≤ a ∧ a < 0x200 + rom.length then (rom[a - 0x200]?).getD 0
      else if 0x50 ≤ a ∧ a < 0xA0 then (font.toList[a - 0x50]?).getD 0 else Memory.read [] a := by
  have hrom : Config.romBase + rom.length ≤ Config.memSize := Nat.add_le_add_left hfits Config.romBase
  have hfont : Config.fontBase + font.toList.length ≤ Config.memSize := by rw [Vector.length_toList]; decide
  rw [loadedMemory, Memory.read_writeBytes _ _ _ _ hrom, Memory.read_writeBytes _ _ _ _ hfont, Vector.length_toList]
  rfl

/-- Memory that is written nowhere holds MEM_INIT outside the font (R10, D14). -/
theorem Memory.read_nil {a : Nat} (h : ¬ (0x50 ≤ a ∧ a < 0xA0)) : Memory.read [] a = Config.memInit a := by
  have hunlisted : Memory.unlisted a = none := if_neg h
  rw [Memory.read, Memory.known, hunlisted]
  rfl

/-- Settles O1: the machine is the reset state over the loaded memory, read by `loadedMemory_read`. -/
theorem loadBuildsTheResetMachine : Obligations.LoadBuildsTheResetMachine := by
  refine fun font rom => ⟨fun hbig => if_pos hbig, fun hfits => ?_⟩
  refine ⟨_, loadWith_eq_machine_iff.mpr ⟨hfits, rfl⟩, fun r => ?_, rfl, rfl, rfl, rfl, rfl, Framebuffer.pixel_blank,
    fun k => BitVec.getLsbD_zero, rfl, fun k hk => loadedMemory_read_rom font hfits hk, fun g hg => ?_,
    fun a ha hfont hrom => ?_⟩
  · exact Vector.getElem_replicate r.isLt
  · rw [State.setMem_byteAt, loadedMemory_read font hfits, if_neg (by omega), if_pos (by omega), Nat.add_sub_cancel_left,
      List.getElem?_eq_getElem (by rw [Vector.length_toList]; exact hg), Vector.getElem_toList]
    rfl
  · rw [State.setMem_byteAt, loadedMemory_read font hfits, if_neg hrom, if_neg (by omega), Memory.read_nil (by omega)]

/-! ### Ranges that fit and ranges that do not -/

theorem exec_of_raises_none {i : Instr} {s : State} (h : raises i s = none) : exec i s = .next (effect i s) := by
  rw [exec_eq, h]

theorem rangeFault_of_fits {s : State} {n : Nat} (h : n = 0 ∨ s.base + n ≤ 0x1000) : rangeFault s n = none :=
  if_pos h

/-- The lowest address out of range of an access from I: I itself, or 0x1000 when I is in memory (R54, R164). -/
theorem lowestOutOfRange_base (s : State) :
    BitVec.ofNat 16 (max s.base Config.memSize) = if s.base ≤ 0xFFF then 0x1000 else s.i := by
  have hsize : Config.memSize = 0x1000 := rfl
  have hbase : s.base = s.i.toNat := rfl
  have := s.i.isLt
  apply BitVec.eq_of_toNat_eq
  rw [BitVec.toNat_ofNat]
  split
  · show _ = 0x1000
    omega
  · omega

/-- An access beyond memory in the terms of the statements: fault entry with the lowest such address. -/
theorem withAccess_beyond {n : Nat} (s t : State) (hn : n ≠ 0) (h : 0xFFF < s.base + n - 1) :
    withAccess s.base n s t =
      .next { s with fault := ⟨.memoryOutOfRange, s.pc, if s.base ≤ 0xFFF then 0x1000 else s.i⟩ } := by
  have hsize : Config.memSize < s.base + n := by
    show 4096 < _
    omega
  rw [withAccess_fault s t hn hsize, lowestOutOfRange_base]
  rfl

/-- Settles O41: each access checks its whole range first, by `withAccess_beyond`. -/
theorem accessBeyondMemoryFaults : Obligations.AccessBeyondMemoryFaults := by
  intro s x y n
  exact ⟨fun hn h => withAccess_beyond s _ hn h, fun h => withAccess_beyond s _ (by decide) h,
    fun h => ⟨withAccess_beyond s _ (Nat.succ_ne_zero _) h, withAccess_beyond s _ (Nat.succ_ne_zero _) h⟩⟩

/-- The digit is not masked, and its glyph address never wraps (R142). -/
theorem toNat_glyphAddress (b : Byte) : (glyphAddress b).toNat = 0x050 + b.toNat * 5 := by
  have := b.isLt
  rw [glyphAddress, BitVec.toNat_ofNat]
  show (80 + b.toNat * 5) % _ = _
  omega

/-- Settles O35: both loads write I alone; from 0xFFF every longer access faults, with the lowest address 0x1000. -/
theorem indexLoads : Obligations.IndexLoads := by
  refine ⟨fun a ha => ?_, fun x => ?_, fun s a => ?_, fun s x => ?_, fun s t x y n h => ?_⟩
  · exact decodeOfEncodeIsTheInstruction (.ldINnn a) (decide_eq_true (Nat.lt_succ_of_le ha))
  · rw [ofNat_add_eq_wordXKk (c := 0xF) (m := 0xF029) (kk := 0x29#8) x rfl]
    exact decodeOfEncodeIsTheInstruction (.ldFVx x) rfl
  · exact ⟨s.advance.setI a, rfl, rfl, rfl, (frame_advance s).trans (frame_setI _ trivial a)⟩
  · exact ⟨s.advance.setI (glyphAddress (s.reg x)), rfl, toNat_glyphAddress _, rfl,
      (frame_advance s).trans (frame_setI _ trivial _), fun m => rfl⟩
  · cases h
    have hbase : (s.advance.setI 0xFFF).base = 0xFFF := rfl
    have hfault := accessBeyondMemoryFaults (s.advance.setI 0xFFF) x y n
    rw [if_pos hbase.le] at hfault
    obtain ⟨hdrw, hbcd, hrange⟩ := hfault
    refine ⟨hbcd (by omega), fun hx i hmem => ?_, fun hn => hdrw (by omega) (by omega)⟩
    have hpos : 0 < x.val := Nat.pos_of_ne_zero fun h0 => hx (Fin.ext h0)
    obtain ⟨hstore, hload⟩ := hrange (by omega)
    simp only [List.mem_cons, List.not_mem_nil, or_false] at hmem
    rcases hmem with rfl | rfl
    · exact hstore
    · exact hload

/-! ### Stores and loads -/

/-- A byte written among consecutive ones is read back at its address (R52, R54). -/
theorem Memory.read_writeBytes_at {bs : List Byte} (m : Memory) {base k : Nat} (hk : k < bs.length)
    (hfit : base + bs.length ≤ 0x1000) : (m.writeBytes base bs).read (base + k) = bs[k] := by
  rw [Memory.read_writeBytes _ _ _ _ hfit, if_pos (by omega), Nat.add_sub_cancel_left, List.getElem?_eq_getElem hk,
    Option.getD_some]

/-- A store of consecutive bytes changes nothing but PC and the bytes of its range. -/
theorem frame_advance_writeBytes {may : Footprint} (s : State) {bs : List Byte} (hfit : s.base + bs.length ≤ 0x1000)
    (hmay : ∀ a, s.base ≤ a → a < s.base + bs.length → may.mem a) :
    Frame may s (s.advance.setMem (s.mem.writeBytes s.base bs)) := by
  refine (frame_advance s).trans (frame_setMem _ fun a ha => ?_)
  rw [Memory.read_writeBytes _ _ _ _ hfit, if_neg fun h => ha (hmay a h.1 h.2)]
  rfl

/-- An instruction whose effect is the advance and a store of consecutive bytes that fit, in the terms of a completion
statement. -/
theorem exec_writes_bytes {may : Footprint} {i : Instr} {s : State} {bs : List Byte}
    (h : exec i s = .next (s.advance.setMem (s.mem.writeBytes s.base bs))) (hfit : s.base + bs.length ≤ 0x1000)
    (hmay : ∀ a, s.base ≤ a → a < s.base + bs.length → may.mem a) :
    ∃ t, exec i s = .next t ∧ (∀ k (hk : k < bs.length), t.byteAt (s.base + k) = bs[k]) ∧ t.pc = s.pc + 2 ∧
      Frame may s t :=
  ⟨_, h, fun _ hk => Memory.read_writeBytes_at _ hk hfit, rfl, frame_advance_writeBytes s hfit hmay⟩

/-- The decimal digits of a byte make it up, hundreds first (R143). -/
theorem bcdDigits_spec (b : Byte) : ∃ h t u : Byte, bcdDigits b = [h, t, u] ∧
    h.toNat ≤ 2 ∧ t.toNat ≤ 9 ∧ u.toNat ≤ 9 ∧ h.toNat * 100 + t.toNat * 10 + u.toNat = b.toNat := by
  have := b.isLt
  refine ⟨_, _, _, rfl, ?_⟩
  simp only [BitVec.toNat_ofNat]
  omega

/-- Settles O37: the digits by `bcdDigits_spec`, each read back at its address. -/
theorem bcdStoresTheDigits : Obligations.BcdStoresTheDigits := by
  intro s x hfit
  have hspace : s.base + 3 ≤ 0x1000 := Nat.succ_le_succ hfit
  obtain ⟨a, b, c, hdigits, ha, hb, hc, hsum⟩ := bcdDigits_spec (s.reg x)
  have hexec : exec (.ldBVx x) s = .next (s.advance.setMem (s.mem.writeBytes s.base [a, b, c])) :=
    hdigits ▸ exec_of_raises_none (rangeFault_of_fits (.inr hspace))
  obtain ⟨t, hexec, hread, hpc, hframe⟩ :=
    exec_writes_bytes (may := { mem := fun a => s.base ≤ a ∧ a ≤ s.base + 2 }) hexec hspace
      fun a hle hlt => ⟨hle, Nat.le_of_lt_succ hlt⟩
  have h0 : t.byteAt s.base = a := hread 0 (by simp)
  have h1 : t.byteAt (s.base + 1) = b := hread 1 (by simp)
  have h2 : t.byteAt (s.base + 2) = c := hread 2 (by simp)
  refine ⟨t, hexec, ?_⟩
  rw [h0, h1, h2]
  exact ⟨ha, hb, hc, hsum, hpc, hframe⟩

/-- The register at a place of the stored range (R144). -/
theorem State.regsUpTo_getElem (s : State) {x k : Reg} (hk : k.val < (s.regsUpTo x).length) :
    (s.regsUpTo x)[k.val] = s.reg k := by
  simp only [State.regsUpTo, List.getElem_take, Vector.getElem_toList]
  rfl

/-- Settles O38: each register read back at its address. -/
theorem storeWritesTheRegisters : Obligations.StoreWritesTheRegisters := by
  intro s x hfit
  have hlength : (s.regsUpTo x).length = x.val + 1 := s.regsUpTo_length x
  have hexec := exec_of_raises_none (i := .ldMemVx x) (rangeFault_of_fits (.inr (Nat.succ_le_succ hfit)))
  obtain ⟨t, hexec, hread, hpc, hframe⟩ :=
    exec_writes_bytes (may := { mem := fun a => s.base ≤ a ∧ a ≤ s.base + x.val }) hexec (by omega)
      fun a hle hlt => ⟨hle, by omega⟩
  refine ⟨t, hexec, fun k hk => ?_, hpc, hframe⟩
  have hlt : k.val < (s.regsUpTo x).length := by
    have : k.val ≤ x.val := hk
    omega
  exact (hread k hlt).trans (s.regsUpTo_getElem hlt)

/-- Settles O39: the registers by `State.loadRegs_reg`. -/
theorem loadReadsTheRegisters : Obligations.LoadReadsTheRegisters := by
  intro s x hfit
  refine ⟨_, exec_of_raises_none (i := .ldVxMem x) (rangeFault_of_fits (.inr (Nat.succ_le_succ hfit))), fun k hk => ?_, rfl,
    (frame_advance s).trans (frame_loadRegs _ (fun r hr => hr) _)⟩
  exact (s.advance.loadRegs_reg s.base x k).trans (if_pos hk)

/-- Settles O40: the load reads at the same I what the store left there. -/
theorem storeThenLoadRestoresRegisters : Obligations.StoreThenLoadRestoresRegisters := by
  intro s x v' hfit
  obtain ⟨t, hstore, hbytes, -, hframe⟩ := storeWritesTheRegisters s x hfit
  have hbase : t.base = s.base := congrArg BitVec.toNat (hframe.i id)
  obtain ⟨u, hload, hregs, -, hframe'⟩ := loadReadsTheRegisters { t with v := v' } x (hbase ▸ hfit)
  refine ⟨t, u, hstore, hload, fun r hr => ?_, fun r hr => hframe'.regs r (not_le.mpr hr)⟩
  calc u.reg r = t.byteAt (t.base + r.val) := hregs r hr
    _ = s.reg r := by rw [hbase, hbytes r hr]

/-- Settles O5: the fetch reads the two stored bytes, the byte at the lower address the high one. -/
theorem storedRegistersAreFetched : Obligations.StoredRegistersAreFetched := by
  intro s x k k1 hfit hk1 hle
  obtain ⟨t, hstore, hbytes, -⟩ := storeWritesTheRegisters s x hfit
  have hle' : k1.val ≤ x.val := hle
  have hpc : (BitVec.ofNat 16 (s.base + k.val)).toNat = s.base + k.val := by
    rw [BitVec.toNat_ofNat]; omega
  have hlow : t.byteAt (s.base + k.val) = s.reg k := hbytes k (Fin.le_def.mpr (by omega))
  have hhigh : t.byteAt (s.base + k.val + 1) = s.reg k1 := by
    rw [Nat.add_assoc, ← hk1, hbytes k1 hle]
  refine ⟨t, hstore, ?_⟩
  rw [State.fetchWord, toNat_wordOfBytes, State.setPc_pc, hpc, State.setPc_byteAt, State.setPc_byteAt, hlow, hhigh]

end Sys2Proof.Machine

/-! SUPPORT. CLS and DRW pixel by pixel (R90, R91): the sprite DRW reads from memory is the one `spriteOn` speaks of, so the laws of
drawing say what DRW does to every pixel and to VF. -/

namespace Sys2Proof.Machine

/-! ### CLS -/

/-- Settles O19: the blank framebuffer written alone. -/
theorem clsClearsTheFramebuffer : Obligations.ClsClearsTheFramebuffer := by
  refine ⟨fun x => ?_, fun s => ⟨s.advance.setFb Framebuffer.blank, rfl, Framebuffer.pixel_blank, rfl,
    (frame_advance s).trans (frame_setFb _ trivial _)⟩⟩
  exact (congrArg decode (ofNat_eq_wordXKk_zero x 0xE0#8)).trans (decode_wordXKk_cls x)

/-! ### DRW -/

/-- The bytes DRW reads, as a sprite, have the bit `spriteOn` gives each pixel (R91). -/
theorem spriteBitAt_bytesFrom (s : State) (base vx vy n c r : Nat) :
    spriteBitAt vx vy (s.bytesFrom base n) c r = spriteOn s base vx vy n c r := by
  have hrow : (s.bytesFrom base n)[r - vy]? = if r - vy < n then some (s.byteAt (base + (r - vy))) else none := by
    rw [State.bytesFrom, List.getElem?_map]
    split
    next h => rw [List.getElem?_range h]; rfl
    next h => rw [List.getElem?_eq_none (by rw [List.length_range]; omega)]; rfl
  rw [spriteBitAt, spriteOn, hrow]
  by_cases hin : vx ≤ c ∧ c < vx + 8 ∧ vy ≤ r
  · by_cases hlast : r - vy < n
    · have hr : r < vy + n := by omega
      simp [hin, hlast, hr, spriteBit]
    · have hr : ¬ r < vy + n := by omega
      simp [hlast, hr]
  · have hout : ¬ (vx ≤ c ∧ c < vx + 8 ∧ vy ≤ r ∧ r < vy + n) := fun h => hin ⟨h.1, h.2.1, h.2.2.1⟩
    simp only [decide_eq_false hin, decide_eq_false hout, Bool.false_and]

/-- The pixel of the sprite DRW Vx, Vy, n draws from a state (R91). -/
def drawnPixel (s : State) (x y : Reg) (n c r : Nat) : Bool :=
  spriteOn s s.base (s.reg x).toNat (s.reg y).toNat n c r

/-- DRW from a state hits a pixel that is on (R91). -/
def DrawCollides (s : State) (x y : Reg) (n : Nat) : Prop :=
  ∃ c r, c < 64 ∧ r < 32 ∧ drawnPixel s x y n c r = true ∧ s.pixelAt c r = true

theorem exec_drw {s : State} {n : Nat} (x y : Reg) (h : n = 0 ∨ s.base + n ≤ 0x1000) :
    exec (.drwVxVyN x y n) s = .next (drawEffect x y n s) :=
  withAccess_ok s _ h

theorem drawEffect_pixelAt (x y : Reg) (n : Nat) (s : State) {c r : Nat} (hc : c < 64) (hr : r < 32) :
    (drawEffect x y n s).pixelAt c r = xor (s.pixelAt c r) (drawnPixel s x y n c r) := by
  rw [drawnPixel, ← spriteBitAt_bytesFrom]
  exact (drawRows_spec _ _ _ _).1 c r hc hr

/-- VF is the flag of a collision, both ways (R91, D11). -/
theorem drawEffect_vF (x y : Reg) (n : Nat) (s : State) :
    (DrawCollides s x y n → (drawEffect x y n s).reg vF = 1) ∧
    (¬ DrawCollides s x y n → (drawEffect x y n s).reg vF = 0) := by
  have hvF : (drawEffect x y n s).reg vF =
      flagByte (drawSprite (s.reg x).toNat (s.reg y).toNat (s.bytesFrom s.base n) s.fb).collision :=
    State.setReg_reg_same _ vF _
  have hcollision : (drawSprite (s.reg x).toNat (s.reg y).toNat (s.bytesFrom s.base n) s.fb).collision = true ↔
      DrawCollides s x y n := by
    rw [drawSprite, (drawRows_spec _ _ _ _).2]
    simp only [spriteBitAt_bytesFrom, Bool.false_eq_true, false_or]
    exact Iff.rfl
  rw [hvF, ← hcollision]
  refine ⟨fun h => ?_, fun h => ?_⟩
  · rw [h]; rfl
  · rw [Bool.eq_false_iff.mpr h]; rfl

theorem frame_drawEffect (x y : Reg) (n : Nat) (s : State) :
    Frame { regs := fun r => r = vF, fb := True } s (drawEffect x y n s) :=
  ((frame_advance s).trans (frame_setFb _ trivial _)).trans (frame_setReg _ rfl _)

/-- Settles O20: the pixels by `drawEffect_pixelAt`, the flag by `drawEffect_vF`. -/
theorem drwXorsTheClippedSprite : Obligations.DrwXorsTheClippedSprite := by
  intro s x y n h
  obtain ⟨hon, hoff⟩ := drawEffect_vF x y n s
  exact ⟨_, exec_drw x y h, fun c r hc hr => drawEffect_pixelAt x y n s hc hr, hon, hoff, rfl, frame_drawEffect x y n s⟩

/-- A second DRW from registers the first kept draws the same pixels. -/
theorem drawnPixel_drawEffect {x y : Reg} (hx : x ≠ vF) (hy : y ≠ vF) (n : Nat) (s : State) (c r : Nat) :
    drawnPixel (drawEffect x y n s) x y n c r = drawnPixel s x y n c r := by
  have hframe := frame_drawEffect x y n s
  rw [drawnPixel, hframe.regs x hx, hframe.regs y hy]
  rfl

/-- After a draw, the pixels the same sprite hits are those that were off before. -/
theorem drawCollides_drawEffect_iff {x y : Reg} (hx : x ≠ vF) (hy : y ≠ vF) (n : Nat) (s : State) :
    DrawCollides (drawEffect x y n s) x y n ↔
      ∃ c r, c < 64 ∧ r < 32 ∧ drawnPixel s x y n c r = true ∧ s.pixelAt c r = false := by
  refine exists_congr fun c => exists_congr fun r => and_congr_right fun hc => and_congr_right fun hr => ?_
  rw [drawnPixel_drawEffect hx hy]
  refine and_congr_right fun hlit => ?_
  rw [drawEffect_pixelAt x y n s hc hr, hlit, Bool.xor_true, Bool.not_eq_true']

/-- Settles O21: the second draw toggles the same pixels back, and hits those the first turned on. -/
theorem drawingTwiceRestoresTheFramebuffer : Obligations.DrawingTwiceRestoresTheFramebuffer := by
  intro s t u x y n hx hy hfit ht hu
  cases (exec_drw x y hfit).symm.trans ht
  cases (exec_drw (s := drawEffect x y n s) x y hfit).symm.trans hu
  refine ⟨Framebuffer.ext_pixel fun c r hc hr => ?_, Iff.trans ?_ (drawCollides_drawEffect_iff hx hy n s)⟩
  · have hsecond := drawEffect_pixelAt x y n (drawEffect x y n s) hc hr
    rw [drawEffect_pixelAt x y n s hc hr, drawnPixel_drawEffect hx hy, Bool.xor_assoc, Bool.xor_self,
      Bool.xor_false] at hsecond
    exact hsecond
  · obtain ⟨hon, hoff⟩ := drawEffect_vF x y n (drawEffect x y n s)
    refine ⟨fun h => by_contra fun hn => ?_, hon⟩
    rw [hoff hn] at h
    cases h

end Sys2Proof.Machine

/-! SUPPORT. The tables of R22 to R24 and R29 over all instructions: which registers an effect changes and which it depends on, and
another call stack passing through every instruction but CALL and RET. -/

namespace Sys2Proof.Machine

/-! ### Registers written -/

/-- An effect changes no register outside the table (R22, R23). -/
theorem effect_reg_of_not_writesReg {i : Instr} {r : Reg} (h : ¬ writesReg i r) (s : State) :
    (effect i s).reg r = s.reg r := by
  cases i
  case ldVxKk | addVxKk | ldVxVy | orVxVy | andVxVy | xorVxVy | ldVxDt => exact s.advance.setReg_reg_ne _ h
  case rndVxKk => exact (s.advance.consumeRand.setReg_reg_ne _ h).trans (s.advance.consumeRand_reg r)
  case addVxVy | subVxVy | subnVxVy | shrVx | shlVx =>
    obtain ⟨hx, hf⟩ := not_or.mp h
    exact (s.advance.setResultFlag_reg _ _ _ r).trans (by rw [if_neg hf, if_neg hx]; rfl)
  case drwVxVyN | addIVx => exact State.setReg_reg_ne _ _ h
  case ldVxMem x => exact (s.advance.loadRegs_reg s.base x r).trans (if_neg h)
  case seVxKk | sneVxKk | seVxVy | sneVxVy | skpVx | sknpVx => exact s.advance.skipIf_reg _ r
  case ldVxK => rw [effect_ldVxK]; rfl
  all_goals rfl

/-- An effect changes I only for Annn, Fx1E and Fx29 (R24). -/
theorem effect_i {i : Instr} (h : writesI i = false) (s : State) : (effect i s).i = s.i := by
  cases i
  case ldINnn | addIVx | ldFVx => cases h
  case seVxKk | sneVxKk | seVxVy | sneVxVy | skpVx | sknpVx => exact s.advance.skipIf_i _
  case ldVxK => rw [effect_ldVxK]; rfl
  case rndVxKk => exact s.advance.consumeRand_i
  all_goals rfl

/-- Settles O47: an effect by `effect_reg_of_not_writesReg` and `effect_i`; fault entry changes neither. -/
theorem registersChangeOnlyAsTheTableSays : Obligations.RegistersChangeOnlyAsTheTableSays := by
  intro i s t h
  rcases exec_cases h with ⟨-, rfl⟩ | ⟨c, w, -, -, rfl⟩
  · exact ⟨fun r hr => by_contra fun hw => hr (effect_reg_of_not_writesReg hw s),
      fun hi => by_contra fun hw => hi (effect_i (Bool.eq_false_iff.mpr hw) s)⟩
  · exact ⟨fun r hr => absurd rfl hr, fun hi => absurd rfl hi⟩

/-! ### Registers read -/

/-- Replace all registers. -/
def State.setRegs (s : State) (v : Vector Byte 16) : State := { s with v := v }

theorem State.setRegs_randIn (s : State) (v : Vector Byte 16) : (s.setRegs v).randIn = s.randIn := rfl

/-- Two states with the same values in some registers, which differ in no other field than the registers. -/
structure SameButRegs (same : Reg → Prop) (t t' : State) : Prop where
  regs : ∀ r, same r → t'.reg r = t.reg r
  rest : t'.setRegs t.v = t

theorem SameButRegs.of_setRegs {t t' : State} (h : t'.setRegs t.v = t) : SameButRegs (fun _ => False) t t' :=
  ⟨fun _ => False.elim, h⟩

/-- The same write of a register makes that register the same too. -/
theorem SameButRegs.setReg {same : Reg → Prop} {t t' : State} (h : SameButRegs same t t') (x : Reg) (b : Byte) :
    SameButRegs (fun r => r = x ∨ same r) (t.setReg x b) (t'.setReg x b) where
  regs r hr := by
    rw [State.setReg_reg, State.setReg_reg]
    split
    next => rfl
    next hx => exact h.regs r (hr.resolve_left hx)
  rest := congrArg (State.setReg · x b) h.rest

theorem SameButRegs.mono {same same' : Reg → Prop} {t t' : State} (h : SameButRegs same t t')
    (hsame : ∀ r, same' r → same r) : SameButRegs same' t t' :=
  ⟨fun r hr => h.regs r (hsame r hr), h.rest⟩

/-- A write of one register from states that differ in the registers alone. -/
theorem sameButRegs_setReg {t t' : State} (h : t'.setRegs t.v = t) (x : Reg) (b : Byte) :
    SameButRegs (fun r => r = x) (t.setReg x b) (t'.setReg x b) :=
  ((SameButRegs.of_setRegs h).setReg x b).mono fun _ => Or.inl

/-- A result with its flag from states that differ in the registers alone. -/
theorem sameButRegs_setResultFlag {t t' : State} (h : t'.setRegs t.v = t) (x : Reg) (b : Byte) (f : Bool) :
    SameButRegs (fun r => r = x ∨ r = vF) (t.setResultFlag x b f) (t'.setResultFlag x b f) :=
  ((sameButRegs_setReg h x b).setReg vF (flagByte f)).mono fun _ => Or.symm

theorem sameButRegs_loadRegs {t t' : State} (h : t'.setRegs t.v = t) (a : Nat) (x : Reg) :
    SameButRegs (fun r => r ≤ x) (t.loadRegs a x) (t'.loadRegs a x) where
  regs r hr := by
    rw [State.loadRegs_reg, State.loadRegs_reg, if_pos hr, if_pos hr, ← h]
    rfl
  rest := show (t'.setRegs t.v).setRegs _ = t.setRegs _ from congrArg (State.setRegs · (t.loadRegs a x).v) h

theorem State.consumeRand_setRegs (s : State) (v : Vector Byte 16) :
    (s.setRegs v).consumeRand = s.consumeRand.setRegs v := by
  unfold State.consumeRand
  rw [State.setRegs_randIn]
  split <;> rfl

/-- The registers stored are the same when those of the range are. -/
theorem State.regsUpTo_congr {s s' : State} {x : Reg} (h : ∀ r, r ≤ x → s'.reg r = s.reg r) :
    s'.regsUpTo x = s.regsUpTo x := by
  refine List.ext_getElem ((s'.regsUpTo_length x).trans (s.regsUpTo_length x).symm) fun k hk' hk => ?_
  have hkx : k < x.val + 1 := Nat.lt_of_lt_of_eq hk (s.regsUpTo_length x)
  have hreg : k < 16 := by omega
  exact (s'.regsUpTo_getElem (k := ⟨k, hreg⟩) hk').trans
    ((h ⟨k, hreg⟩ (Nat.le_of_lt_succ hkx)).trans (s.regsUpTo_getElem (k := ⟨k, hreg⟩) hk).symm)

section Reads

variable {i : Instr} {s : State} {v : Vector Byte 16} (hread : ∀ r, readsReg i r → (s.setRegs v).reg r = s.reg r)

include hread

/-- A fault depends on no register the table does not say is read (R23). -/
theorem raises_setRegs : raises i (s.setRegs v) = raises i s := by
  cases i
  case skpVx x | sknpVx x | ldVxK x => exact congrArg keyFault (hread x rfl)
  all_goals rfl

/-- An effect depends on no register the table does not say is read: the written ones get the same values (R23). -/
theorem effect_setRegs : SameButRegs (writesReg i) (effect i s) (effect i (s.setRegs v)) := by
  have hadvance : (s.setRegs v).advance.setRegs s.advance.v = s.advance := rfl
  cases i
  case ldVxKk x kk => exact sameButRegs_setReg hadvance x kk
  case ldVxDt x => exact sameButRegs_setReg hadvance x s.dt
  case addVxKk x kk => simp only [effect, hread x rfl]; exact sameButRegs_setReg hadvance x _
  case ldVxVy x y => simp only [effect, hread y rfl]; exact sameButRegs_setReg hadvance x _
  case orVxVy x y | andVxVy x y | xorVxVy x y =>
    simp only [effect, hread x (.inl rfl), hread y (.inr rfl)]
    exact sameButRegs_setReg hadvance x _
  case addVxVy x y | subVxVy x y | subnVxVy x y =>
    simp only [effect, hread x (.inl rfl), hread y (.inr rfl)]
    exact sameButRegs_setResultFlag hadvance x _ _
  case shrVx x | shlVx x => simp only [effect, hread x rfl]; exact sameButRegs_setResultFlag hadvance x _ _
  case rndVxKk x kk =>
    have hconsume : (s.setRegs v).advance.consumeRand.setRegs s.advance.consumeRand.v = s.advance.consumeRand := by
      rw [show (s.setRegs v).advance = s.advance.setRegs v from rfl, State.consumeRand_setRegs]
      rfl
    exact sameButRegs_setReg hconsume x _
  case drwVxVyN x y n =>
    simp only [effect, drawEffect, hread x (.inl rfl), hread y (.inr rfl)]
    exact sameButRegs_setReg rfl vF _
  case addIVx x => simp only [effect, hread x rfl]; exact sameButRegs_setReg rfl vF _
  case ldVxMem x => exact sameButRegs_loadRegs hadvance s.base x
  all_goals apply SameButRegs.of_setRegs
  case seVxKk x kk | sneVxKk x kk | skpVx x | sknpVx x =>
    simp only [effect, State.skipIf_eq_setPc, hread x rfl]; rfl
  case seVxVy x y | sneVxVy x y =>
    simp only [effect, State.skipIf_eq_setPc, hread x (.inl rfl), hread y (.inr rfl)]; rfl
  case ldVxK x => simp only [effect_ldVxK, hread x rfl]; rfl
  case jpV0Nnn => simp only [effect, hread v0 rfl]; rfl
  case ldDtVx x | ldStVx x | ldFVx x | ldBVx x => simp only [effect, hread x rfl]; rfl
  case ldMemVx x => simp only [effect, State.regsUpTo_congr hread]; rfl
  all_goals rfl

end Reads

/-- Settles O48: an instruction that completes raises no fault, from the other registers neither, and its effects agree by
`effect_setRegs`; the registers it does not write are kept by `effect_reg_of_not_writesReg`. -/
theorem registersMatterOnlyAsTheTableSays : Obligations.RegistersMatterOnlyAsTheTableSays := by
  intro i s t v' h hrun hread
  rcases exec_cases h with ⟨hraise, rfl⟩ | ⟨c, w, -, hc, rfl⟩
  · obtain ⟨hregs, hrest⟩ := effect_setRegs hread
    exact ⟨_, exec_of_raises_none ((raises_setRegs hread).trans hraise), hregs,
      fun r hr => effect_reg_of_not_writesReg hr (s.setRegs v'), hrest⟩
  · exact absurd hc hrun

/-! ### The call stack -/

/-- No fault of an instruction that neither pushes nor pops depends on the stack (R29). -/
theorem raises_setStack {i : Instr} (hi : touchesStack i = false) (s : State) (k : List Word) :
    raises i (s.setStack k) = raises i s := by
  cases i
  case ret | callNnn => cases hi
  all_goals rfl

theorem State.consumeRand_setStack (s : State) (k : List Word) : (s.setStack k).consumeRand = s.consumeRand.setStack k := by
  unfold State.consumeRand
  rw [State.setStack_randIn]
  split <;> rfl

/-- Another stack passes through the effect of an instruction that neither pushes nor pops. -/
theorem effect_setStack {i : Instr} (hi : touchesStack i = false) (s : State) (k : List Word) :
    effect i (s.setStack k) = (effect i s).setStack k := by
  cases i
  case ret | callNnn => cases hi
  case seVxKk | sneVxKk | seVxVy | sneVxVy | skpVx | sknpVx => simp only [effect, State.skipIf_eq_setPc]; rfl
  case ldVxK => simp only [effect_ldVxK]; rfl
  case rndVxKk x kk => exact congrArg (State.setReg · x (s.rand &&& kk)) (s.advance.consumeRand_setStack k)
  all_goals rfl

theorem exec_setStack {i : Instr} (hi : touchesStack i = false) {s t : State} (h : exec i s = .next t) (k : List Word) :
    exec i (s.setStack k) = .next (t.setStack k) := by
  obtain ⟨_, e, rfl⟩ :=
    exec_related (fun t t' => t' = t.setStack k) (raises_setStack hi s k) (fun _ _ => rfl) (effect_setStack hi s k) h
  exact e

/-- An instruction that neither pushes nor pops keeps the stack: passing the state's own through changes nothing. -/
theorem exec_stack {i : Instr} (hi : touchesStack i = false) {s t : State} (h : exec i s = .next t) :
    t.stack = s.stack := by
  have hown : t = t.setStack s.stack := Host.Outcome.next.inj (h.symm.trans (exec_setStack hi h s.stack))
  exact (congrArg State.stack hown).trans (t.setStack_stack s.stack)

/-- Settles O51: kept and passed through by `exec_stack` and `exec_setStack`; memory is another field, and there is no entry
beyond the list. -/
theorem callStackIsOnlyPushedAndPopped : Obligations.CallStackIsOnlyPushedAndPopped := by
  refine ⟨fun i s t k hi h => ⟨exec_stack hi h, exec_setStack hi h k⟩, fun s k a => rfl, fun s k hk => ?_⟩
  exact List.getElem?_eq_none (s.stack.length_reverse.trans_le hk)

end Sys2Proof.Machine
